-- ==== Sys2Proof/Word.lean ====
section
/-! DEFINITION. The data types of the core: the unsigned byte and the 16-bit word or address (00_scope.md R8, R14), and the two wraps. -/

namespace Sys2Proof

/-- `u8` (00_scope.md R14). -/
abbrev Byte := BitVec 8

/-- `u16` (00_scope.md R14): an address, a pointer, the program counter. -/
abbrev Word := BitVec 16

/-- `wrap8(n) = n mod 0x100` (00_scope.md R14). -/
def wrap8 (n : Nat) : Byte := BitVec.ofNat 8 n

/-- `wrap16(n) = n mod 0x10000` (00_scope.md R14). -/
def wrap16 (n : Nat) : Word := BitVec.ofNat 16 n

end Sys2Proof
end

