-- ==== Sys2Proof/Syntax.lean ====
section
/-! DEFINITION. The instruction as syntax: mnemonics, addressing modes, and `Instr`, one constructor per row of
spec/opcode_table.json (30_encoding.md R84), its operand already assembled from the operand bytes (R82). -/

namespace Sys2Proof

/-- The thirteen mnemonics in scope (00_scope.md R4). -/
inductive Mnemonic where
  | lda | ldx | sta | tay | and | adc | jmp | jsr | rts | clc | sec | nop | brk
  deriving DecidableEq, Repr

/-- The eleven addressing modes (30_encoding.md R81). -/
inductive Mode where
  | implied
  | immediate
  | zeroPage
  | zeroPageX
  | zeroPageY
  | absolute
  | absoluteX
  | absoluteY
  | indirect
  | indirectX
  | indirectY
  deriving DecidableEq, Repr

/-- What the decode table gives for a mapped opcode: mnemonic and addressing mode (30_encoding.md R83). -/
structure Entry where
  mnemonic : Mnemonic
  mode     : Mode
  deriving DecidableEq, Repr

/-- The operand bytes of an instruction, assembled: none, `imm8` or `zp8`, or the little-endian word (30_encoding.md R81, R82). -/
inductive OperandBytes where
  | none
  | byte (b : Byte)
  | word (w : Word)
  deriving DecidableEq, Repr

/-- The memory operands of R107 to R112, R114 and R115: those with an effective address from which `fetch_argument` can read
(40_execute_and_addressing.md R116). Indirect is not among them: only JMP uses it (R113). -/
inductive MemOperand where
  | zeroPage  (zp8 : Byte)
  | zeroPageX (zp8 : Byte)
  | zeroPageY (zp8 : Byte)
  | absolute  (addr16 : Word)
  | absoluteX (addr16 : Word)
  | absoluteY (addr16 : Word)
  | indirectX (zp8 : Byte)
  | indirectY (zp8 : Byte)
  deriving DecidableEq, Repr

/-- The operands `fetch_argument` gives a value for (40_execute_and_addressing.md R116). -/
inductive DataOperand where
  | immediate (imm8 : Byte)
  | memory (m : MemOperand)
  deriving DecidableEq, Repr

/-- The addressing mode of a memory operand. -/
def MemOperand.mode : MemOperand → Mode
  | .zeroPage _ => .zeroPage
  | .zeroPageX _ => .zeroPageX
  | .zeroPageY _ => .zeroPageY
  | .absolute _ => .absolute
  | .absoluteX _ => .absoluteX
  | .absoluteY _ => .absoluteY
  | .indirectX _ => .indirectX
  | .indirectY _ => .indirectY

/-- The addressing mode of a data operand. -/
def DataOperand.mode : DataOperand → Mode
  | .immediate _ => .immediate
  | .memory m => m.mode

/-- The instructions: one constructor per row of the opcode table (30_encoding.md R84). -/
inductive Instr where
  | ldaImmediate (imm8 : Byte)
  | ldaZeroPage (zp8 : Byte)
  | ldaZeroPageX (zp8 : Byte)
  | ldaAbsolute (addr16 : Word)
  | ldaAbsoluteX (addr16 : Word)
  | ldaAbsoluteY (addr16 : Word)
  | ldaIndirectX (zp8 : Byte)
  | ldaIndirectY (zp8 : Byte)
  | ldxImmediate (imm8 : Byte)
  | ldxZeroPage (zp8 : Byte)
  | ldxZeroPageY (zp8 : Byte)
  | ldxAbsolute (addr16 : Word)
  | ldxAbsoluteY (addr16 : Word)
  | staZeroPage (zp8 : Byte)
  | staZeroPageX (zp8 : Byte)
  | staAbsolute (addr16 : Word)
  | staAbsoluteX (addr16 : Word)
  | staAbsoluteY (addr16 : Word)
  | staIndirectX (zp8 : Byte)
  | staIndirectY (zp8 : Byte)
  | tay
  | andImmediate (imm8 : Byte)
  | andZeroPage (zp8 : Byte)
  | andZeroPageX (zp8 : Byte)
  | andAbsolute (addr16 : Word)
  | andAbsoluteX (addr16 : Word)
  | andAbsoluteY (addr16 : Word)
  | andIndirectX (zp8 : Byte)
  | andIndirectY (zp8 : Byte)
  | adcImmediate (imm8 : Byte)
  | adcZeroPage (zp8 : Byte)
  | adcZeroPageX (zp8 : Byte)
  | adcAbsolute (addr16 : Word)
  | adcAbsoluteX (addr16 : Word)
  | adcAbsoluteY (addr16 : Word)
  | adcIndirectX (zp8 : Byte)
  | adcIndirectY (zp8 : Byte)
  | jmpAbsolute (addr16 : Word)
  | jmpIndirect (ptr16 : Word)
  | jsr (addr16 : Word)
  | rts
  | clc
  | sec
  | nop
  | brk
  deriving DecidableEq, Repr

/-- The mnemonic of an instruction (30_encoding.md R84). -/
def Instr.mnemonic : Instr → Mnemonic
  | .ldaImmediate _ => .lda
  | .ldaZeroPage _ => .lda
  | .ldaZeroPageX _ => .lda
  | .ldaAbsolute _ => .lda
  | .ldaAbsoluteX _ => .lda
  | .ldaAbsoluteY _ => .lda
  | .ldaIndirectX _ => .lda
  | .ldaIndirectY _ => .lda
  | .ldxImmediate _ => .ldx
  | .ldxZeroPage _ => .ldx
  | .ldxZeroPageY _ => .ldx
  | .ldxAbsolute _ => .ldx
  | .ldxAbsoluteY _ => .ldx
  | .staZeroPage _ => .sta
  | .staZeroPageX _ => .sta
  | .staAbsolute _ => .sta
  | .staAbsoluteX _ => .sta
  | .staAbsoluteY _ => .sta
  | .staIndirectX _ => .sta
  | .staIndirectY _ => .sta
  | .tay => .tay
  | .andImmediate _ => .and
  | .andZeroPage _ => .and
  | .andZeroPageX _ => .and
  | .andAbsolute _ => .and
  | .andAbsoluteX _ => .and
  | .andAbsoluteY _ => .and
  | .andIndirectX _ => .and
  | .andIndirectY _ => .and
  | .adcImmediate _ => .adc
  | .adcZeroPage _ => .adc
  | .adcZeroPageX _ => .adc
  | .adcAbsolute _ => .adc
  | .adcAbsoluteX _ => .adc
  | .adcAbsoluteY _ => .adc
  | .adcIndirectX _ => .adc
  | .adcIndirectY _ => .adc
  | .jmpAbsolute _ => .jmp
  | .jmpIndirect _ => .jmp
  | .jsr _ => .jsr
  | .rts => .rts
  | .clc => .clc
  | .sec => .sec
  | .nop => .nop
  | .brk => .brk

/-- The addressing mode of an instruction (30_encoding.md R84). -/
def Instr.mode : Instr → Mode
  | .ldaImmediate _ => .immediate
  | .ldaZeroPage _ => .zeroPage
  | .ldaZeroPageX _ => .zeroPageX
  | .ldaAbsolute _ => .absolute
  | .ldaAbsoluteX _ => .absoluteX
  | .ldaAbsoluteY _ => .absoluteY
  | .ldaIndirectX _ => .indirectX
  | .ldaIndirectY _ => .indirectY
  | .ldxImmediate _ => .immediate
  | .ldxZeroPage _ => .zeroPage
  | .ldxZeroPageY _ => .zeroPageY
  | .ldxAbsolute _ => .absolute
  | .ldxAbsoluteY _ => .absoluteY
  | .staZeroPage _ => .zeroPage
  | .staZeroPageX _ => .zeroPageX
  | .staAbsolute _ => .absolute
  | .staAbsoluteX _ => .absoluteX
  | .staAbsoluteY _ => .absoluteY
  | .staIndirectX _ => .indirectX
  | .staIndirectY _ => .indirectY
  | .tay => .implied
  | .andImmediate _ => .immediate
  | .andZeroPage _ => .zeroPage
  | .andZeroPageX _ => .zeroPageX
  | .andAbsolute _ => .absolute
  | .andAbsoluteX _ => .absoluteX
  | .andAbsoluteY _ => .absoluteY
  | .andIndirectX _ => .indirectX
  | .andIndirectY _ => .indirectY
  | .adcImmediate _ => .immediate
  | .adcZeroPage _ => .zeroPage
  | .adcZeroPageX _ => .zeroPageX
  | .adcAbsolute _ => .absolute
  | .adcAbsoluteX _ => .absoluteX
  | .adcAbsoluteY _ => .absoluteY
  | .adcIndirectX _ => .indirectX
  | .adcIndirectY _ => .indirectY
  | .jmpAbsolute _ => .absolute
  | .jmpIndirect _ => .indirect
  | .jsr _ => .absolute
  | .rts => .implied
  | .clc => .implied
  | .sec => .implied
  | .nop => .implied
  | .brk => .implied

/-- The assembled operand bytes an instruction carries (30_encoding.md R82). -/
def Instr.operandBytes : Instr → OperandBytes
  | .ldaImmediate imm8 => .byte imm8
  | .ldaZeroPage zp8 => .byte zp8
  | .ldaZeroPageX zp8 => .byte zp8
  | .ldaAbsolute addr16 => .word addr16
  | .ldaAbsoluteX addr16 => .word addr16
  | .ldaAbsoluteY addr16 => .word addr16
  | .ldaIndirectX zp8 => .byte zp8
  | .ldaIndirectY zp8 => .byte zp8
  | .ldxImmediate imm8 => .byte imm8
  | .ldxZeroPage zp8 => .byte zp8
  | .ldxZeroPageY zp8 => .byte zp8
  | .ldxAbsolute addr16 => .word addr16
  | .ldxAbsoluteY addr16 => .word addr16
  | .staZeroPage zp8 => .byte zp8
  | .staZeroPageX zp8 => .byte zp8
  | .staAbsolute addr16 => .word addr16
  | .staAbsoluteX addr16 => .word addr16
  | .staAbsoluteY addr16 => .word addr16
  | .staIndirectX zp8 => .byte zp8
  | .staIndirectY zp8 => .byte zp8
  | .tay => .none
  | .andImmediate imm8 => .byte imm8
  | .andZeroPage zp8 => .byte zp8
  | .andZeroPageX zp8 => .byte zp8
  | .andAbsolute addr16 => .word addr16
  | .andAbsoluteX addr16 => .word addr16
  | .andAbsoluteY addr16 => .word addr16
  | .andIndirectX zp8 => .byte zp8
  | .andIndirectY zp8 => .byte zp8
  | .adcImmediate imm8 => .byte imm8
  | .adcZeroPage zp8 => .byte zp8
  | .adcZeroPageX zp8 => .byte zp8
  | .adcAbsolute addr16 => .word addr16
  | .adcAbsoluteX addr16 => .word addr16
  | .adcAbsoluteY addr16 => .word addr16
  | .adcIndirectX zp8 => .byte zp8
  | .adcIndirectY zp8 => .byte zp8
  | .jmpAbsolute addr16 => .word addr16
  | .jmpIndirect ptr16 => .word ptr16
  | .jsr addr16 => .word addr16
  | .rts => .none
  | .clc => .none
  | .sec => .none
  | .nop => .none
  | .brk => .none

/-- Why a byte sequence is no instruction. -/
inductive DecodeError where
  /-- The opcode byte has no table entry: the decode failure of 30_encoding.md R85. -/
  | decodeFailure (op : Byte)
  /-- The opcode has an entry and the sequence ends before its operand bytes (R87 fixes how many there are). -/
  | truncated (op : Byte)
  /-- There is no opcode byte. -/
  | noBytes
  deriving DecidableEq, Repr

/-- The decoder's verdict on a byte sequence: an instruction and the bytes after it, or a rejection by name. -/
inductive Decoded where
  | ok (i : Instr) (rest : List Byte)
  | rejected (e : DecodeError)
  deriving DecidableEq, Repr

end Sys2Proof
end

