-- ==== Sys2Proof/WellFormed.lean ====
section
/-! DEFINITION. Well-formedness of an instruction as it is written down: its mnemonic takes its mode
(30_encoding.md R84) and its operand bytes are those of the mode (R81). An `Instr` meets both by its type, which
Sys2Proof/Laws/PerInstr.lean proves constructor by constructor; the checks refuse every other combination. -/

namespace Sys2Proof

/-- The addressing modes each mnemonic takes (30_encoding.md R84). -/
def Mnemonic.modes : Mnemonic → List Mode
  | .lda => [.immediate, .zeroPage, .zeroPageX, .absolute, .absoluteX, .absoluteY, .indirectX, .indirectY]
  | .ldx => [.immediate, .zeroPage, .zeroPageY, .absolute, .absoluteY]
  | .sta => [.zeroPage, .zeroPageX, .absolute, .absoluteX, .absoluteY, .indirectX, .indirectY]
  | .tay => [.implied]
  | .and => [.immediate, .zeroPage, .zeroPageX, .absolute, .absoluteX, .absoluteY, .indirectX, .indirectY]
  | .adc => [.immediate, .zeroPage, .zeroPageX, .absolute, .absoluteX, .absoluteY, .indirectX, .indirectY]
  | .jmp => [.absolute, .indirect]
  | .jsr => [.absolute]
  | .rts => [.implied]
  | .clc => [.implied]
  | .sec => [.implied]
  | .nop => [.implied]
  | .brk => [.implied]

/-- An instruction written down part by part, with nothing guaranteed about how the parts fit. -/
structure RawInstr where
  mnemonic : Mnemonic
  mode     : Mode
  operand  : OperandBytes
  deriving DecidableEq, Repr

/-- Check 1: the table has an opcode for this mnemonic in this mode (30_encoding.md R84). -/
def RawInstr.modeTaken (r : RawInstr) : Bool :=
  r.mnemonic.modes.contains r.mode

/-- Check 2: the operand is what the mode's format holds after the opcode byte (30_encoding.md R81). -/
def RawInstr.operandFits (r : RawInstr) : Bool :=
  match r.mode, r.operand with
  | .implied, .none => true
  | .immediate, .byte _ => true
  | .zeroPage, .byte _ => true
  | .zeroPageX, .byte _ => true
  | .zeroPageY, .byte _ => true
  | .absolute, .word _ => true
  | .absoluteX, .word _ => true
  | .absoluteY, .word _ => true
  | .indirect, .word _ => true
  | .indirectX, .byte _ => true
  | .indirectY, .byte _ => true
  | _, _ => false

/-- Both checks. -/
def RawInstr.wf (r : RawInstr) : Bool :=
  r.modeTaken && r.operandFits

/-- The parts of an instruction. -/
def Instr.raw (i : Instr) : RawInstr :=
  ⟨i.mnemonic, i.mode, i.operandBytes⟩

/-- Well-formedness of an instruction. -/
def Instr.wf (i : Instr) : Bool :=
  i.raw.wf

end Sys2Proof
end

