-- ==== Sys2Proof/Decode.lean ====
section
/-! DEFINITION. The decoder and the encoder, both from the opcode table of 30_encoding.md R84 and the formats of R81, R82. The
decoder is total on byte sequences and rejects by name. The byte helpers that the decoder and the machine share stand first. -/

namespace Sys2Proof

/-- `zext_16` (00_scope.md R14). -/
def zext16 (b : Byte) : Word := b.setWidth 16

/-- `hi : lo`, the word with high byte `hi` and low byte `lo` (00_scope.md R14, 30_encoding.md R82). -/
def joinBytes (hi lo : Byte) : Word := hi ++ lo

/-- `w[7:0]`. -/
def lowByte (w : Word) : Byte := w.extractLsb' 0 8

/-- `w[15:8]`. -/
def highByte (w : Word) : Byte := w.extractLsb' 8 8

/-- The encoded length of a mode, opcode byte included (30_encoding.md R81). -/
def Mode.len : Mode → Nat
  | .implied => 1
  | .immediate => 2
  | .zeroPage => 2
  | .zeroPageX => 2
  | .zeroPageY => 2
  | .absolute => 3
  | .absoluteX => 3
  | .absoluteY => 3
  | .indirect => 3
  | .indirectX => 2
  | .indirectY => 2

/-- One row of the decode table. -/
structure OpcodeRow where
  opcode : Byte
  entry  : Entry
  deriving DecidableEq, Repr

/-- Load, store and transfer: the rows of 30_encoding.md R84. -/
def loadStoreRows : List OpcodeRow :=
  [ ⟨0x81, .sta, .indirectX⟩,
    ⟨0x85, .sta, .zeroPage⟩,
    ⟨0x8D, .sta, .absolute⟩,
    ⟨0x91, .sta, .indirectY⟩,
    ⟨0x95, .sta, .zeroPageX⟩,
    ⟨0x99, .sta, .absoluteY⟩,
    ⟨0x9D, .sta, .absoluteX⟩,
    ⟨0xA1, .lda, .indirectX⟩,
    ⟨0xA2, .ldx, .immediate⟩,
    ⟨0xA5, .lda, .zeroPage⟩,
    ⟨0xA6, .ldx, .zeroPage⟩,
    ⟨0xA8, .tay, .implied⟩,
    ⟨0xA9, .lda, .immediate⟩,
    ⟨0xAD, .lda, .absolute⟩,
    ⟨0xAE, .ldx, .absolute⟩,
    ⟨0xB1, .lda, .indirectY⟩,
    ⟨0xB5, .lda, .zeroPageX⟩,
    ⟨0xB6, .ldx, .zeroPageY⟩,
    ⟨0xB9, .lda, .absoluteY⟩,
    ⟨0xBD, .lda, .absoluteX⟩,
    ⟨0xBE, .ldx, .absoluteY⟩ ]

/-- AND and ADC: the rows of 30_encoding.md R84. -/
def arithmeticRows : List OpcodeRow :=
  [ ⟨0x21, .and, .indirectX⟩,
    ⟨0x25, .and, .zeroPage⟩,
    ⟨0x29, .and, .immediate⟩,
    ⟨0x2D, .and, .absolute⟩,
    ⟨0x31, .and, .indirectY⟩,
    ⟨0x35, .and, .zeroPageX⟩,
    ⟨0x39, .and, .absoluteY⟩,
    ⟨0x3D, .and, .absoluteX⟩,
    ⟨0x61, .adc, .indirectX⟩,
    ⟨0x65, .adc, .zeroPage⟩,
    ⟨0x69, .adc, .immediate⟩,
    ⟨0x6D, .adc, .absolute⟩,
    ⟨0x71, .adc, .indirectY⟩,
    ⟨0x75, .adc, .zeroPageX⟩,
    ⟨0x79, .adc, .absoluteY⟩,
    ⟨0x7D, .adc, .absoluteX⟩ ]

/-- Control transfer: the rows of 30_encoding.md R84. -/
def controlRows : List OpcodeRow :=
  [ ⟨0x20, .jsr, .absolute⟩,
    ⟨0x4C, .jmp, .absolute⟩,
    ⟨0x60, .rts, .implied⟩,
    ⟨0x6C, .jmp, .indirect⟩ ]

/-- Flag and system: the rows of 30_encoding.md R84. -/
def flagSystemRows : List OpcodeRow :=
  [ ⟨0x00, .brk, .implied⟩,
    ⟨0x18, .clc, .implied⟩,
    ⟨0x38, .sec, .implied⟩,
    ⟨0xEA, .nop, .implied⟩ ]

/-- The decode table: 45 entries (30_encoding.md R84). -/
def opcodeTable : List OpcodeRow :=
  loadStoreRows ++ arithmeticRows ++ controlRows ++ flagSystemRows

/-- `decode(op)` of 30_encoding.md R83: the opcode's entry, or `none`, the decode failure of R85. -/
def lookup (op : Byte) : Option Entry :=
  (opcodeTable.find? fun r => r.opcode == op).map OpcodeRow.entry

/-- The instruction with this mnemonic, mode and assembled operand. -/
def Instr.ofParts : Mnemonic → Mode → OperandBytes → Option Instr
  | .lda, .immediate, .byte v => some (.ldaImmediate v)
  | .lda, .zeroPage, .byte v => some (.ldaZeroPage v)
  | .lda, .zeroPageX, .byte v => some (.ldaZeroPageX v)
  | .lda, .absolute, .word v => some (.ldaAbsolute v)
  | .lda, .absoluteX, .word v => some (.ldaAbsoluteX v)
  | .lda, .absoluteY, .word v => some (.ldaAbsoluteY v)
  | .lda, .indirectX, .byte v => some (.ldaIndirectX v)
  | .lda, .indirectY, .byte v => some (.ldaIndirectY v)
  | .ldx, .immediate, .byte v => some (.ldxImmediate v)
  | .ldx, .zeroPage, .byte v => some (.ldxZeroPage v)
  | .ldx, .zeroPageY, .byte v => some (.ldxZeroPageY v)
  | .ldx, .absolute, .word v => some (.ldxAbsolute v)
  | .ldx, .absoluteY, .word v => some (.ldxAbsoluteY v)
  | .sta, .zeroPage, .byte v => some (.staZeroPage v)
  | .sta, .zeroPageX, .byte v => some (.staZeroPageX v)
  | .sta, .absolute, .word v => some (.staAbsolute v)
  | .sta, .absoluteX, .word v => some (.staAbsoluteX v)
  | .sta, .absoluteY, .word v => some (.staAbsoluteY v)
  | .sta, .indirectX, .byte v => some (.staIndirectX v)
  | .sta, .indirectY, .byte v => some (.staIndirectY v)
  | .tay, .implied, .none => some .tay
  | .and, .immediate, .byte v => some (.andImmediate v)
  | .and, .zeroPage, .byte v => some (.andZeroPage v)
  | .and, .zeroPageX, .byte v => some (.andZeroPageX v)
  | .and, .absolute, .word v => some (.andAbsolute v)
  | .and, .absoluteX, .word v => some (.andAbsoluteX v)
  | .and, .absoluteY, .word v => some (.andAbsoluteY v)
  | .and, .indirectX, .byte v => some (.andIndirectX v)
  | .and, .indirectY, .byte v => some (.andIndirectY v)
  | .adc, .immediate, .byte v => some (.adcImmediate v)
  | .adc, .zeroPage, .byte v => some (.adcZeroPage v)
  | .adc, .zeroPageX, .byte v => some (.adcZeroPageX v)
  | .adc, .absolute, .word v => some (.adcAbsolute v)
  | .adc, .absoluteX, .word v => some (.adcAbsoluteX v)
  | .adc, .absoluteY, .word v => some (.adcAbsoluteY v)
  | .adc, .indirectX, .byte v => some (.adcIndirectX v)
  | .adc, .indirectY, .byte v => some (.adcIndirectY v)
  | .jmp, .absolute, .word v => some (.jmpAbsolute v)
  | .jmp, .indirect, .word v => some (.jmpIndirect v)
  | .jsr, .absolute, .word v => some (.jsr v)
  | .rts, .implied, .none => some .rts
  | .clc, .implied, .none => some .clc
  | .sec, .implied, .none => some .sec
  | .nop, .implied, .none => some .nop
  | .brk, .implied, .none => some .brk
  | _, _, _ => none

/-- The operand a mode takes from the bytes after the opcode, and the bytes left over (30_encoding.md R81, R82). -/
def takeOperand (m : Mode) (bytes : List Byte) : Option (OperandBytes × List Byte) :=
  match m.len, bytes with
  | 1, rest => some (.none, rest)
  | 2, b :: rest => some (.byte b, rest)
  | 3, lo :: hi :: rest => some (.word (joinBytes hi lo), rest)
  | _, _ => none

/-- Decode one instruction from a byte sequence (30_encoding.md R80 to R87). -/
def decode : List Byte → Decoded
  | [] => .rejected .noBytes
  | op :: bytes =>
    match lookup op with
    | none => .rejected (.decodeFailure op)
    | some e =>
      match takeOperand e.mode bytes with
      | none => .rejected (.truncated op)
      | some (o, rest) =>
        match Instr.ofParts e.mnemonic e.mode o with
        | none => .rejected (.decodeFailure op)
        | some i => .ok i rest

/-- Encode an instruction: its opcode byte from 30_encoding.md R84, then its operand bytes in the order of R81, the low byte of a
word first. -/
def encode : Instr → List Byte
  | .ldaImmediate imm8 => [0xA9, imm8]
  | .ldaZeroPage zp8 => [0xA5, zp8]
  | .ldaZeroPageX zp8 => [0xB5, zp8]
  | .ldaAbsolute addr16 => [0xAD, lowByte addr16, highByte addr16]
  | .ldaAbsoluteX addr16 => [0xBD, lowByte addr16, highByte addr16]
  | .ldaAbsoluteY addr16 => [0xB9, lowByte addr16, highByte addr16]
  | .ldaIndirectX zp8 => [0xA1, zp8]
  | .ldaIndirectY zp8 => [0xB1, zp8]
  | .ldxImmediate imm8 => [0xA2, imm8]
  | .ldxZeroPage zp8 => [0xA6, zp8]
  | .ldxZeroPageY zp8 => [0xB6, zp8]
  | .ldxAbsolute addr16 => [0xAE, lowByte addr16, highByte addr16]
  | .ldxAbsoluteY addr16 => [0xBE, lowByte addr16, highByte addr16]
  | .staZeroPage zp8 => [0x85, zp8]
  | .staZeroPageX zp8 => [0x95, zp8]
  | .staAbsolute addr16 => [0x8D, lowByte addr16, highByte addr16]
  | .staAbsoluteX addr16 => [0x9D, lowByte addr16, highByte addr16]
  | .staAbsoluteY addr16 => [0x99, lowByte addr16, highByte addr16]
  | .staIndirectX zp8 => [0x81, zp8]
  | .staIndirectY zp8 => [0x91, zp8]
  | .tay => [0xA8]
  | .andImmediate imm8 => [0x29, imm8]
  | .andZeroPage zp8 => [0x25, zp8]
  | .andZeroPageX zp8 => [0x35, zp8]
  | .andAbsolute addr16 => [0x2D, lowByte addr16, highByte addr16]
  | .andAbsoluteX addr16 => [0x3D, lowByte addr16, highByte addr16]
  | .andAbsoluteY addr16 => [0x39, lowByte addr16, highByte addr16]
  | .andIndirectX zp8 => [0x21, zp8]
  | .andIndirectY zp8 => [0x31, zp8]
  | .adcImmediate imm8 => [0x69, imm8]
  | .adcZeroPage zp8 => [0x65, zp8]
  | .adcZeroPageX zp8 => [0x75, zp8]
  | .adcAbsolute addr16 => [0x6D, lowByte addr16, highByte addr16]
  | .adcAbsoluteX addr16 => [0x7D, lowByte addr16, highByte addr16]
  | .adcAbsoluteY addr16 => [0x79, lowByte addr16, highByte addr16]
  | .adcIndirectX zp8 => [0x61, zp8]
  | .adcIndirectY zp8 => [0x71, zp8]
  | .jmpAbsolute addr16 => [0x4C, lowByte addr16, highByte addr16]
  | .jmpIndirect ptr16 => [0x6C, lowByte ptr16, highByte ptr16]
  | .jsr addr16 => [0x20, lowByte addr16, highByte addr16]
  | .rts => [0x60]
  | .clc => [0x18]
  | .sec => [0x38]
  | .nop => [0xEA]
  | .brk => [0x00]

/-- The three bytes of an instruction word numbered as spec/opcode_table.json numbers it: bit 0 is the least significant bit of the
first byte, the second byte is bits 15..8, and every bit from `nbits` up is 0. -/
def tableWordBytes (nbits w : Nat) : List Byte :=
  let v := w % 2 ^ nbits
  [wrap8 v, wrap8 (v / 0x100), wrap8 (v / 0x10000)]

/-- The instruction the decoder reads from a table word. -/
def decodeTableWord (nbits w : Nat) : Option Instr :=
  match decode (tableWordBytes nbits w) with
  | .ok i _ => some i
  | .rejected _ => none

end Sys2Proof
end

