-- ==== Sys2Proof/Machine/Flags.lean ====
section
/-! DEFINITION. The status flag unit (10_state.md R26): seven booleans with no packed image (R34), and every flag computation of the
instruction set: `setZN` (40_execute_and_addressing.md R117) and the carry of ADC (42_arithmetic_logic.md R141). -/

namespace Sys2Proof.Machine

/-- The names of the seven flags (10_state.md R26). -/
inductive Flag where
  | c | z | i | d | b | v | n
  deriving DecidableEq, Repr

/-- The seven flags (10_state.md R27 to R33). -/
structure Flags where
  c : Bool
  z : Bool
  i : Bool
  d : Bool
  b : Bool
  v : Bool
  n : Bool
  deriving DecidableEq, Repr

/-- The getter of a flag (10_state.md R26). -/
def Flags.get (fs : Flags) : Flag → Bool
  | .c => fs.c
  | .z => fs.z
  | .i => fs.i
  | .d => fs.d
  | .b => fs.b
  | .v => fs.v
  | .n => fs.n

/-- The setter of a flag (10_state.md R26). It writes no other flag. -/
def Flags.set (fs : Flags) (f : Flag) (x : Bool) : Flags :=
  match f with
  | .c => { fs with c := x }
  | .z => { fs with z := x }
  | .i => { fs with i := x }
  | .d => { fs with d := x }
  | .b => { fs with b := x }
  | .v => { fs with v := x }
  | .n => { fs with n := x }

/-- "All flags cleared by default" (70_reset_and_hazards.md R220). -/
def Flags.cleared : Flags :=
  ⟨false, false, false, false, false, false, false⟩

/-- The flags at construction: Interrupt-Disable and Carry set, the rest clear (70_reset_and_hazards.md R220). -/
def Flags.powerOn : Flags :=
  (Flags.cleared.set .i true).set .c true

/-- `setZN(v)`: Z from `v = 0x00`, N from bit 7; no other flag (40_execute_and_addressing.md R117). -/
def Flags.setZN (fs : Flags) (v : Byte) : Flags :=
  (fs.set .z (v == 0x00)).set .n (v.getLsbD 7)

/-- The exact sum of ADC, 0 to 0x1FE; no carry is added (42_arithmetic_logic.md R141). -/
def adcSum (a arg : Byte) : Nat :=
  a.toNat + arg.toNat

/-- The unsigned carry out of bit 7, `s > 0xFF` (42_arithmetic_logic.md R141). -/
def adcCarry (a arg : Byte) : Bool :=
  decide (adcSum a arg > 0xFF)

/-- The flags ADC leaves: C and V both the unsigned carry, Z and N from the 8-bit result (42_arithmetic_logic.md R141). -/
def Flags.setAdc (fs : Flags) (a arg : Byte) : Flags :=
  ((fs.set .c (adcCarry a arg)).set .v (adcCarry a arg)).setZN (wrap8 (adcSum a arg))

/-- Seven drawn flags, one free value each from draw `k` on (70_reset_and_hazards.md R223). -/
def Flags.drawn (bit : Nat → Bool) (k : Nat) : Flags :=
  { c := bit k, z := bit (k + 1), i := bit (k + 2), d := bit (k + 3),
    b := bit (k + 4), v := bit (k + 5), n := bit (k + 6) }

/-- How many draws `Flags.drawn` takes. -/
def flagDraws : Nat := 7

end Sys2Proof.Machine
end

