-- ==== Sys2Proof/Config.lean ====
section
/-! DEFINITION. What the spec leaves to a parameter, as types, and the values it leaves open. The parameters' values stand in
Sys2Proof/Machine/Parameters.lean. -/

namespace Sys2Proof

/-- The two admitted values of `MEM_SIZE` (00_scope.md R9). -/
inductive MemSize where
  /-- 65535 cells: the source's value, the normative one. -/
  | cells65535
  /-- 65536 cells: a full 16-bit space. -/
  | cells65536
  deriving DecidableEq, Repr

/-- The two admitted values of `STACK_BASE` (00_scope.md R10). -/
inductive StackBase where
  /-- 0x0000: the stack pointer indexes memory directly, the spec's choice. -/
  | zeroPage
  /-- 0x0100: the page-1 stack. -/
  | pageOne
  deriving DecidableEq, Repr

/-- The parameters of one core. They are plain data that a state carries and nothing writes, so that a statement about every state
holds for each admitted combination (log 3). DESIGN CHOICE: where they stand; the values are the spec's. -/
structure Params where
  memSize   : MemSize
  stackBase : StackBase
  deriving DecidableEq, Repr

namespace Config

/-- `RESET_SP_DECREMENT`, OPEN (00_scope.md R11): a constant no proof can see the value of (log 4). -/
opaque resetSpDecrement : Byte

/-- The draws of `draw v : bool` (00_scope.md R13, R17): the `k`-th value drawn, of which nothing is known (log 5). -/
opaque freeBit : Nat → Bool

end Config

end Sys2Proof
end

