-- ==== Sys2Proof/Machine/Parameters.lean ====
section
/-! DEFINITION. The values of the parameters (00_scope.md R8 to R10, R12) and of the construction state (70_reset_and_hazards.md R220),
apart from State so that each stands once. -/

namespace Sys2Proof

/-- The number of memory cells (00_scope.md R9). -/
def MemSize.cells : MemSize → Nat
  | .cells65535 => 65535
  | .cells65536 => 65536

/-- The address added to SP (00_scope.md R10). -/
def StackBase.addr : StackBase → Word
  | .zeroPage => 0x0000
  | .pageOne => 0x0100

/-- The values the spec sets: MEM_SIZE = 65535 and STACK_BASE = 0x0000 (00_scope.md R9, R10). -/
def Params.normative : Params :=
  ⟨.cells65535, .zeroPage⟩

namespace Machine

/-- LOAD_ORIGIN (00_scope.md R8). -/
def loadOrigin : Word := 0x0600

/-- PC at construction (10_state.md R24). -/
def powerOnPc : Word := 0x0600

/-- SP at construction (10_state.md R25). -/
def powerOnSp : Byte := 0xFD

/-- What a memory list leaves unlisted reads as. DESIGN CHOICE: the spec gives no initial memory content (00_scope.md R12); a list can
hold every content, so this value shows only in State.reset (log 2). -/
def unlistedByte : Byte := 0x00

end Machine

end Sys2Proof
end

