-- ==== Sys2Proof/Machine/State.lean ====
section
/-! DEFINITION. The architectural state (10_state.md R20), the reasons a step can stop, and the state after construction
(70_reset_and_hazards.md R220). -/

namespace Sys2Proof.Machine

/-- The core's one exception (60_exceptions.md R200, R201). It is the content of the FAULT latch, a part of the state: the tick that
raises it answers a next state with the latch set, which is all the spec says it does (40_execute_and_addressing.md R102), so no step
answers `Host.Outcome.fault` (log 6). -/
inductive Fault where
  /-- A tick fetched an opcode byte with no decode-table entry. Raised by TICK alone. Safe: nothing runs in a state that records it. -/
  | decodeFailure (op : Byte)
  deriving DecidableEq, Repr

/-- The situations the model gives no meaning (00_scope.md R17, 60_exceptions.md R201). -/
inductive Refusal where
  /-- An arm of exec without a meaning yet. Safe. -/
  | notModelled (mnemonic : String)
  /-- Any port operation, TICK included, while FAULT is set (10_state.md R41). Safe: nothing is proved past a decode failure. -/
  | coreFaulted
  /-- A LOAD longer than the memory from LOAD_ORIGIN on (20_memory.md R61). Raised by the LOAD port alone. Safe. -/
  | loadTooLong
  /-- A JSR whose two stack writes fall on its own operand bytes (43_control_transfer.md R151). Raised by JSR alone. Safe. -/
  | jsrStackOverlapsOperand
  deriving DecidableEq, Repr

/-- The memory array as (cell index, byte) pairs: cell indices strictly rising, no entry equal to what an unlisted cell reads as
(`Memory.wf`). -/
abbrev Memory := List Host.Cell

/-- The cell indices rise strictly. -/
def Memory.sorted : Memory → Bool
  | [] => true
  | [_] => true
  | c₁ :: c₂ :: rest => decide (c₁.1 < c₂.1) && Memory.sorted (c₂ :: rest)

/-- The canonical form: rising cell indices, and no entry that an unlisted cell would give. -/
def Memory.wf (m : Memory) : Bool :=
  Memory.sorted m && m.all fun c => c.2 != unlistedByte

/-- Every listed cell is one of the first `n` (20_memory.md R50: indices 0 to MEM_SIZE - 1). -/
def Memory.within (n : Nat) (m : Memory) : Bool :=
  m.all fun c => decide (c.1 < n)

/-- The state of one core (10_state.md R20). `params` and `draws` are the model's own fields (log 3, log 5). -/
structure State where
  /-- Accumulator (R21). -/
  a      : Byte
  /-- Index register X (R22). -/
  x      : Byte
  /-- Index register Y (R23). -/
  y      : Byte
  /-- Program counter (R24). -/
  pc     : Word
  /-- Stack pointer (R25). -/
  sp     : Byte
  /-- The flags C, Z, I, D, B, V, N (R26). -/
  flags  : Flags
  /-- The memory array M (R35). -/
  mem    : Memory
  /-- The FAULT latch (R36). -/
  fault  : Option Fault
  /-- The parameters MEM_SIZE and STACK_BASE (00_scope.md R9, R10). -/
  params : Params
  /-- How many free values have been drawn (00_scope.md R13). -/
  draws  : Nat
  deriving DecidableEq, Repr

/-- NEW (70_reset_and_hazards.md R220), for given parameters and a given `MEM0` (00_scope.md R12). -/
def State.new (p : Params) (mem0 : Memory) : State :=
  { a := 0x00, x := 0x00, y := 0x00, pc := powerOnPc, sp := powerOnSp, flags := Flags.powerOn,
    mem := mem0, fault := none, params := p, draws := 0 }

/-- The core right after NEW with the spec's own parameters (log 1). DESIGN CHOICE: `MEM0` is all zero here, nothing listed (log 2), and
the draw counter starts at 0 (log 5). -/
def State.reset : State :=
  State.new Params.normative []

end Sys2Proof.Machine
end

