-- ==== Sys2Proof/Machine/Ops.lean ====
section
/-! DEFINITION. The named operations: the memory array, the memory interface and the stack controller (20_memory.md), the program
counter (40_execute_and_addressing.md R103), the fetch (R101, R104), taking the decode failure (R102), RESET (70_reset_and_hazards.md
R221) and LOAD (20_memory.md R61). -/

namespace Sys2Proof.Machine

/-! ## The memory array -/

/-- The byte of cell `k`. -/
def Memory.read (m : Memory) (k : Nat) : Byte :=
  match m with
  | [] => unlistedByte
  | (j, v) :: rest => if j = k then v else Memory.read rest k

/-- List `v` at cell `k`, at its place in the rising order, in place of what is listed there. -/
def Memory.insert (m : Memory) (k : Nat) (v : Byte) : Memory :=
  match m with
  | [] => [(k, v)]
  | (j, u) :: rest =>
    if k < j then (k, v) :: (j, u) :: rest
    else if j = k then (k, v) :: rest
    else (j, u) :: Memory.insert rest k v

/-- Write `v` to cell `k`, keeping the canonical form: a byte that an unlisted cell reads as is not listed. -/
def Memory.write (m : Memory) (k : Nat) (v : Byte) : Memory :=
  if v = unlistedByte then m.filter fun c => c.1 != k else Memory.insert m k v

/-- The canonical memory with content `f` in the cells `k, k+1, …, k+n-1` and nothing listed elsewhere: `MEM0` as the spec gives it, a
function from cell index to byte (00_scope.md R12). -/
def Memory.ofFun (f : Nat → Byte) (k : Nat) : Nat → Memory
  | 0 => []
  | n + 1 =>
    if f k = unlistedByte then Memory.ofFun f (k + 1) n else (k, f k) :: Memory.ofFun f (k + 1) n

/-! ## The memory interface -/

/-- `phys(a) = a mod MEM_SIZE` (20_memory.md R50). -/
def State.phys (s : State) (a : Word) : Nat :=
  a.toNat % s.params.memSize.cells

/-- `read_byte(a)`, `MemRead(a, 1)` (20_memory.md R51). -/
def State.readByte (s : State) (a : Word) : Byte :=
  s.mem.read (s.phys a)

/-- `MemWrite(a, 1, v)` (20_memory.md R52). -/
def State.writeByte (s : State) (a : Word) (v : Byte) : State :=
  { s with mem := s.mem.write (s.phys a) v }

/-- `read_word(a)`, `MemRead(a, 2)`: low byte at `a`, high byte at `wrap16(a + 1)` (20_memory.md R53). -/
def State.readWord (s : State) (a : Word) : Word :=
  joinBytes (s.readByte (a + 1)) (s.readByte a)

/-! ## The stack controller -/

/-- `stackaddr(s) = wrap16(STACK_BASE + zext_16(s))` (20_memory.md R66). -/
def State.stackAddr (s : State) (sp : Byte) : Word :=
  s.params.stackBase.addr + zext16 sp

/-- `push_byte(v)`: write at the stack pointer, then decrement it (20_memory.md R62). -/
def State.pushByte (s : State) (v : Byte) : State :=
  let t := s.writeByte (s.stackAddr s.sp) v
  { t with sp := s.sp - 1 }

/-- The value `pop_byte()` returns: the byte at the incremented stack pointer (20_memory.md R63). -/
def State.popByteValue (s : State) : Byte :=
  s.readByte (s.stackAddr (s.sp + 1))

/-- The state `pop_byte()` leaves: the stack pointer incremented, the cell not cleared (20_memory.md R63). -/
def State.popByteState (s : State) : State :=
  { s with sp := s.sp + 1 }

/-- `push_word(v)`: the high byte first, then the low byte (20_memory.md R64). -/
def State.pushWord (s : State) (v : Word) : State :=
  (s.pushByte (highByte v)).pushByte (lowByte v)

/-- The value `pop_word()` returns: the first byte popped is the low byte (20_memory.md R65). -/
def State.popWordValue (s : State) : Word :=
  joinBytes s.popByteState.popByteValue s.popByteValue

/-- The state `pop_word()` leaves (20_memory.md R65). -/
def State.popWordState (s : State) : State :=
  s.popByteState.popByteState

/-! ## Program counter and fetch -/

/-- The fixed advance `PC <- wrap16(PC + len)` (40_execute_and_addressing.md R103). -/
def State.advance (s : State) (len : Nat) : State :=
  { s with pc := s.pc + wrap16 len }

/-- `PC <- t`, the end of a control transfer (40_execute_and_addressing.md R103). -/
def State.jumpTo (s : State) (t : Word) : State :=
  { s with pc := t }

/-- The opcode byte of the next tick, at `phys(PC)` (40_execute_and_addressing.md R101). -/
def State.fetchOpcode (s : State) : Byte :=
  s.readByte s.pc

/-- The `n` bytes from PC on, each address wrapped at 16 bits (40_execute_and_addressing.md R104). -/
def State.bytesAtPc (s : State) (n : Nat) : List Byte :=
  (List.range n).map fun k => s.readByte (s.pc + wrap16 k)

/-- The instruction bytes a tick reads: the opcode, and for a mapped opcode the operand bytes its length asks for; for an unmapped
opcode no operand byte (30_encoding.md R87, 40_execute_and_addressing.md R102, R104). -/
def State.fetchBytes (s : State) : List Byte :=
  match lookup s.fetchOpcode with
  | none => [s.fetchOpcode]
  | some e => s.bytesAtPc e.mode.len

/-! ## The exception -/

/-- Taking the exception `DecodeFailure(op)`: FAULT records it, and nothing else changes. No state is saved, no mode changes, control
goes nowhere, and PC keeps the failing address (40_execute_and_addressing.md R102, 60_exceptions.md R200, R204). There is no return from
it: nothing clears FAULT (60_exceptions.md R205). -/
def State.takeDecodeFailure (s : State) (op : Byte) : State :=
  { s with fault := some (.decodeFailure op) }

/-! ## RESET and LOAD -/

/-- RESET with a given decrement and given flags (70_reset_and_hazards.md R221 to R223). PC and memory are unchanged. -/
def State.resetWith (s : State) (decrement : Byte) (flags : Flags) : State :=
  { s with a := 0x00, x := 0x00, y := 0x00, sp := s.sp - decrement, flags := flags }

/-- `for i in 0 .. n-1: MemWrite(a + i, 1, bs[i])` (20_memory.md R61). -/
def State.writeBytes (s : State) (a : Word) : List Byte → State
  | [] => s
  | b :: bs => (s.writeByte a b).writeBytes (a + 1) bs

end Sys2Proof.Machine
end

