-- ==== Sys2Proof/Machine/Operands.lean ====
section
/-! DEFINITION. The address-mode resolver (40_execute_and_addressing.md R105 to R116): the effective address and the fetched operand of
every mode. Implied has neither (R105) and Immediate has no effective address (R106), so neither is a memory operand. -/

namespace Sys2Proof.Machine

/-- `zext_16(wrap8(zp8 + index))`: the index addition wraps in the zero page (40_execute_and_addressing.md R108, R109, R114). -/
def zeroPageIndexed (zp8 index : Byte) : Word :=
  zext16 (zp8 + index)

/-- `wrap16(w + zext_16(index))` (40_execute_and_addressing.md R111, R112, R115). -/
def wordIndexed (w : Word) (index : Byte) : Word :=
  w + zext16 index

/-- The effective address of a memory operand (40_execute_and_addressing.md R107 to R112, R114, R115). -/
def State.ea (s : State) : MemOperand → Word
  | .zeroPage zp8 => zext16 zp8
  | .zeroPageX zp8 => zeroPageIndexed zp8 s.x
  | .zeroPageY zp8 => zeroPageIndexed zp8 s.y
  | .absolute addr16 => addr16
  | .absoluteX addr16 => wordIndexed addr16 s.x
  | .absoluteY addr16 => wordIndexed addr16 s.y
  | .indirectX zp8 => s.readWord (zeroPageIndexed zp8 s.x)
  | .indirectY zp8 => wordIndexed (s.readWord (zext16 zp8)) s.y

/-- The effective address of Indirect mode, used by JMP alone: the word at the absolute operand, with no page wrap
(40_execute_and_addressing.md R113). -/
def State.eaIndirect (s : State) (ptr16 : Word) : Word :=
  s.readWord ptr16

/-- `fetch_argument` (40_execute_and_addressing.md R116). -/
def State.fetchArgument (s : State) : DataOperand → Byte
  | .immediate imm8 => imm8
  | .memory m => s.readByte (s.ea m)

end Sys2Proof.Machine
end

