-- ==== Sys2Proof/Machine/ArithmeticLogic.lean ====
section
/-! DEFINITION. The meanings of AND and ADC (42_arithmetic_logic.md R140, R141). Both fall through to `PC + len`. -/

namespace Sys2Proof.Machine

/-- AND: `A <- A & arg; setZN(A)`; C and V unchanged (42_arithmetic_logic.md R140). -/
def andA (d : DataOperand) (s : State) : Host.Outcome State Fault Refusal :=
  let r := s.a &&& s.fetchArgument d
  .next (({ s with a := r, flags := s.flags.setZN r }).advance d.mode.len)

/-- ADC: `A <- wrap8(A + arg)` with no carry in and no decimal mode; C and V the unsigned carry out, Z and N from the result
(42_arithmetic_logic.md R141). -/
def addA (d : DataOperand) (s : State) : Host.Outcome State Fault Refusal :=
  let arg := s.fetchArgument d
  .next (({ s with a := wrap8 (adcSum s.a arg), flags := s.flags.setAdc s.a arg }).advance d.mode.len)

/-- 0x29, AND Immediate. -/
def execAndImmediate (imm8 : Byte) (s : State) : Host.Outcome State Fault Refusal :=
  andA (.immediate imm8) s

/-- 0x25, AND ZeroPage. -/
def execAndZeroPage (zp8 : Byte) (s : State) : Host.Outcome State Fault Refusal :=
  andA (.memory (.zeroPage zp8)) s

/-- 0x35, AND ZeroPageX. -/
def execAndZeroPageX (zp8 : Byte) (s : State) : Host.Outcome State Fault Refusal :=
  andA (.memory (.zeroPageX zp8)) s

/-- 0x2D, AND Absolute. -/
def execAndAbsolute (addr16 : Word) (s : State) : Host.Outcome State Fault Refusal :=
  andA (.memory (.absolute addr16)) s

/-- 0x3D, AND AbsoluteX. -/
def execAndAbsoluteX (addr16 : Word) (s : State) : Host.Outcome State Fault Refusal :=
  andA (.memory (.absoluteX addr16)) s

/-- 0x39, AND AbsoluteY. -/
def execAndAbsoluteY (addr16 : Word) (s : State) : Host.Outcome State Fault Refusal :=
  andA (.memory (.absoluteY addr16)) s

/-- 0x21, AND IndirectX. -/
def execAndIndirectX (zp8 : Byte) (s : State) : Host.Outcome State Fault Refusal :=
  andA (.memory (.indirectX zp8)) s

/-- 0x31, AND IndirectY. -/
def execAndIndirectY (zp8 : Byte) (s : State) : Host.Outcome State Fault Refusal :=
  andA (.memory (.indirectY zp8)) s

/-- 0x69, ADC Immediate. -/
def execAdcImmediate (imm8 : Byte) (s : State) : Host.Outcome State Fault Refusal :=
  addA (.immediate imm8) s

/-- 0x65, ADC ZeroPage. -/
def execAdcZeroPage (zp8 : Byte) (s : State) : Host.Outcome State Fault Refusal :=
  addA (.memory (.zeroPage zp8)) s

/-- 0x75, ADC ZeroPageX. -/
def execAdcZeroPageX (zp8 : Byte) (s : State) : Host.Outcome State Fault Refusal :=
  addA (.memory (.zeroPageX zp8)) s

/-- 0x6D, ADC Absolute. -/
def execAdcAbsolute (addr16 : Word) (s : State) : Host.Outcome State Fault Refusal :=
  addA (.memory (.absolute addr16)) s

/-- 0x7D, ADC AbsoluteX. -/
def execAdcAbsoluteX (addr16 : Word) (s : State) : Host.Outcome State Fault Refusal :=
  addA (.memory (.absoluteX addr16)) s

/-- 0x79, ADC AbsoluteY. -/
def execAdcAbsoluteY (addr16 : Word) (s : State) : Host.Outcome State Fault Refusal :=
  addA (.memory (.absoluteY addr16)) s

/-- 0x61, ADC IndirectX. -/
def execAdcIndirectX (zp8 : Byte) (s : State) : Host.Outcome State Fault Refusal :=
  addA (.memory (.indirectX zp8)) s

/-- 0x71, ADC IndirectY. -/
def execAdcIndirectY (zp8 : Byte) (s : State) : Host.Outcome State Fault Refusal :=
  addA (.memory (.indirectY zp8)) s

end Sys2Proof.Machine
end

