-- ==== Sys2Proof/Machine/ControlTransfer.lean ====
section
/-! DEFINITION. The meanings of JMP, JSR and RTS (43_control_transfer.md R150 to R152). Each ends with `PC = t`; no fixed advance is added. -/

namespace Sys2Proof.Machine

/-- Do JSR's two stack cells meet the cells of its own two operand bytes (43_control_transfer.md R151)? -/
def jsrOverlaps (s : State) : Bool :=
  [s.phys (s.stackAddr s.sp), s.phys (s.stackAddr (s.sp - 1))].any fun k =>
    [s.phys (s.pc + 1), s.phys (s.pc + 2)].contains k

/-- The return address JSR pushes, `wrap16(PC + len - 1)`, the address of its own last byte (43_control_transfer.md R151). -/
def jsrReturn (s : State) : Word :=
  s.pc + wrap16 (Mode.absolute.len - 1)

/-- 0x4C, JMP Absolute. -/
def execJmpAbsolute (addr16 : Word) (s : State) : Host.Outcome State Fault Refusal :=
  .next (s.jumpTo (s.ea (.absolute addr16)))

/-- 0x6C, JMP Indirect. -/
def execJmpIndirect (ptr16 : Word) (s : State) : Host.Outcome State Fault Refusal :=
  .next (s.jumpTo (s.eaIndirect ptr16))

/-- 0x20, JSR Absolute. -/
def execJsr (addr16 : Word) (s : State) : Host.Outcome State Fault Refusal :=
  if jsrOverlaps s then .refused .jsrStackOverlapsOperand
  else .next ((s.pushWord (jsrReturn s)).jumpTo (s.ea (.absolute addr16)))

/-- 0x60, RTS Implied. -/
def execRts (s : State) : Host.Outcome State Fault Refusal :=
  .next (s.popWordState.jumpTo (s.popWordValue + 1))

end Sys2Proof.Machine
end

