-- ==== Sys2Proof/Machine/FlagSystem.lean ====
section
/-! DEFINITION. The meanings of CLC, SEC, NOP and BRK (44_flag_and_system.md R160 to R163). All fall through to `PC + 1`; BRK has no other effect. -/

namespace Sys2Proof.Machine

/-- 0x18, CLC Implied. -/
def execClc (s : State) : Host.Outcome State Fault Refusal :=
  .next (({ s with flags := s.flags.set .c false }).advance Mode.implied.len)

/-- 0x38, SEC Implied. -/
def execSec (s : State) : Host.Outcome State Fault Refusal :=
  .next (({ s with flags := s.flags.set .c true }).advance Mode.implied.len)

/-- 0xEA, NOP Implied. -/
def execNop (s : State) : Host.Outcome State Fault Refusal :=
  .next (s.advance Mode.implied.len)

/-- 0x00, BRK Implied. -/
def execBrk (s : State) : Host.Outcome State Fault Refusal :=
  .next (s.advance Mode.implied.len)

end Sys2Proof.Machine
end

