-- ==== Sys2Proof/Machine/LoadStoreTransfer.lean ====
section
/-! DEFINITION. The meanings of LDA, LDX, STA and TAY (41_load_store_transfer.md R130 to R133). All fall through to `PC + len`. -/

namespace Sys2Proof.Machine

/-- LDA: `A <- arg; setZN(A)`, both flags from the new A (41_load_store_transfer.md R130). -/
def loadA (d : DataOperand) (s : State) : Host.Outcome State Fault Refusal :=
  let arg := s.fetchArgument d
  .next (({ s with a := arg, flags := s.flags.setZN arg }).advance d.mode.len)

/-- LDX: `X <- arg; setZN(X)` (41_load_store_transfer.md R131). -/
def loadX (d : DataOperand) (s : State) : Host.Outcome State Fault Refusal :=
  let arg := s.fetchArgument d
  .next (({ s with x := arg, flags := s.flags.setZN arg }).advance d.mode.len)

/-- STA: `MemWrite(ea, 1, A)`; no flag (41_load_store_transfer.md R132). -/
def storeA (m : MemOperand) (s : State) : Host.Outcome State Fault Refusal :=
  .next ((s.writeByte (s.ea m) s.a).advance m.mode.len)

/-- 0xA9, LDA Immediate. -/
def execLdaImmediate (imm8 : Byte) (s : State) : Host.Outcome State Fault Refusal :=
  loadA (.immediate imm8) s

/-- 0xA5, LDA ZeroPage. -/
def execLdaZeroPage (zp8 : Byte) (s : State) : Host.Outcome State Fault Refusal :=
  loadA (.memory (.zeroPage zp8)) s

/-- 0xB5, LDA ZeroPageX. -/
def execLdaZeroPageX (zp8 : Byte) (s : State) : Host.Outcome State Fault Refusal :=
  loadA (.memory (.zeroPageX zp8)) s

/-- 0xAD, LDA Absolute. -/
def execLdaAbsolute (addr16 : Word) (s : State) : Host.Outcome State Fault Refusal :=
  loadA (.memory (.absolute addr16)) s

/-- 0xBD, LDA AbsoluteX. -/
def execLdaAbsoluteX (addr16 : Word) (s : State) : Host.Outcome State Fault Refusal :=
  loadA (.memory (.absoluteX addr16)) s

/-- 0xB9, LDA AbsoluteY. -/
def execLdaAbsoluteY (addr16 : Word) (s : State) : Host.Outcome State Fault Refusal :=
  loadA (.memory (.absoluteY addr16)) s

/-- 0xA1, LDA IndirectX. -/
def execLdaIndirectX (zp8 : Byte) (s : State) : Host.Outcome State Fault Refusal :=
  loadA (.memory (.indirectX zp8)) s

/-- 0xB1, LDA IndirectY. -/
def execLdaIndirectY (zp8 : Byte) (s : State) : Host.Outcome State Fault Refusal :=
  loadA (.memory (.indirectY zp8)) s

/-- 0xA2, LDX Immediate. -/
def execLdxImmediate (imm8 : Byte) (s : State) : Host.Outcome State Fault Refusal :=
  loadX (.immediate imm8) s

/-- 0xA6, LDX ZeroPage. -/
def execLdxZeroPage (zp8 : Byte) (s : State) : Host.Outcome State Fault Refusal :=
  loadX (.memory (.zeroPage zp8)) s

/-- 0xB6, LDX ZeroPageY. -/
def execLdxZeroPageY (zp8 : Byte) (s : State) : Host.Outcome State Fault Refusal :=
  loadX (.memory (.zeroPageY zp8)) s

/-- 0xAE, LDX Absolute. -/
def execLdxAbsolute (addr16 : Word) (s : State) : Host.Outcome State Fault Refusal :=
  loadX (.memory (.absolute addr16)) s

/-- 0xBE, LDX AbsoluteY. -/
def execLdxAbsoluteY (addr16 : Word) (s : State) : Host.Outcome State Fault Refusal :=
  loadX (.memory (.absoluteY addr16)) s

/-- 0x85, STA ZeroPage. -/
def execStaZeroPage (zp8 : Byte) (s : State) : Host.Outcome State Fault Refusal :=
  storeA (.zeroPage zp8) s

/-- 0x95, STA ZeroPageX. -/
def execStaZeroPageX (zp8 : Byte) (s : State) : Host.Outcome State Fault Refusal :=
  storeA (.zeroPageX zp8) s

/-- 0x8D, STA Absolute. -/
def execStaAbsolute (addr16 : Word) (s : State) : Host.Outcome State Fault Refusal :=
  storeA (.absolute addr16) s

/-- 0x9D, STA AbsoluteX. -/
def execStaAbsoluteX (addr16 : Word) (s : State) : Host.Outcome State Fault Refusal :=
  storeA (.absoluteX addr16) s

/-- 0x99, STA AbsoluteY. -/
def execStaAbsoluteY (addr16 : Word) (s : State) : Host.Outcome State Fault Refusal :=
  storeA (.absoluteY addr16) s

/-- 0x81, STA IndirectX. -/
def execStaIndirectX (zp8 : Byte) (s : State) : Host.Outcome State Fault Refusal :=
  storeA (.indirectX zp8) s

/-- 0x91, STA IndirectY. -/
def execStaIndirectY (zp8 : Byte) (s : State) : Host.Outcome State Fault Refusal :=
  storeA (.indirectY zp8) s

/-- 0xA8, TAY Implied. -/
def execTay (s : State) : Host.Outcome State Fault Refusal :=
  .next (({ s with y := s.a, flags := s.flags.setZN s.a }).advance Mode.implied.len)

end Sys2Proof.Machine
end

