-- ==== Sys2Proof/Machine/Dispatch.lean ====
section
/-! DEFINITION. exec: the operation and the PC update of one instruction (40_execute_and_addressing.md R100), one arm a constructor. -/

namespace Sys2Proof.Machine

/-- What instruction `i` does in state `s`: its operation and the PC update, in one atomic step (R100, R103). -/
def exec (i : Instr) (s : State) : Host.Outcome State Fault Refusal :=
  match i with
  | .ldaImmediate imm8 => Sys2Proof.Machine.execLdaImmediate imm8 s
  | .ldaZeroPage zp8 => Sys2Proof.Machine.execLdaZeroPage zp8 s
  | .ldaZeroPageX zp8 => Sys2Proof.Machine.execLdaZeroPageX zp8 s
  | .ldaAbsolute addr16 => Sys2Proof.Machine.execLdaAbsolute addr16 s
  | .ldaAbsoluteX addr16 => Sys2Proof.Machine.execLdaAbsoluteX addr16 s
  | .ldaAbsoluteY addr16 => Sys2Proof.Machine.execLdaAbsoluteY addr16 s
  | .ldaIndirectX zp8 => Sys2Proof.Machine.execLdaIndirectX zp8 s
  | .ldaIndirectY zp8 => Sys2Proof.Machine.execLdaIndirectY zp8 s
  | .ldxImmediate imm8 => Sys2Proof.Machine.execLdxImmediate imm8 s
  | .ldxZeroPage zp8 => Sys2Proof.Machine.execLdxZeroPage zp8 s
  | .ldxZeroPageY zp8 => Sys2Proof.Machine.execLdxZeroPageY zp8 s
  | .ldxAbsolute addr16 => Sys2Proof.Machine.execLdxAbsolute addr16 s
  | .ldxAbsoluteY addr16 => Sys2Proof.Machine.execLdxAbsoluteY addr16 s
  | .staZeroPage zp8 => Sys2Proof.Machine.execStaZeroPage zp8 s
  | .staZeroPageX zp8 => Sys2Proof.Machine.execStaZeroPageX zp8 s
  | .staAbsolute addr16 => Sys2Proof.Machine.execStaAbsolute addr16 s
  | .staAbsoluteX addr16 => Sys2Proof.Machine.execStaAbsoluteX addr16 s
  | .staAbsoluteY addr16 => Sys2Proof.Machine.execStaAbsoluteY addr16 s
  | .staIndirectX zp8 => Sys2Proof.Machine.execStaIndirectX zp8 s
  | .staIndirectY zp8 => Sys2Proof.Machine.execStaIndirectY zp8 s
  | .tay => Sys2Proof.Machine.execTay s
  | .andImmediate imm8 => Sys2Proof.Machine.execAndImmediate imm8 s
  | .andZeroPage zp8 => Sys2Proof.Machine.execAndZeroPage zp8 s
  | .andZeroPageX zp8 => Sys2Proof.Machine.execAndZeroPageX zp8 s
  | .andAbsolute addr16 => Sys2Proof.Machine.execAndAbsolute addr16 s
  | .andAbsoluteX addr16 => Sys2Proof.Machine.execAndAbsoluteX addr16 s
  | .andAbsoluteY addr16 => Sys2Proof.Machine.execAndAbsoluteY addr16 s
  | .andIndirectX zp8 => Sys2Proof.Machine.execAndIndirectX zp8 s
  | .andIndirectY zp8 => Sys2Proof.Machine.execAndIndirectY zp8 s
  | .adcImmediate imm8 => Sys2Proof.Machine.execAdcImmediate imm8 s
  | .adcZeroPage zp8 => Sys2Proof.Machine.execAdcZeroPage zp8 s
  | .adcZeroPageX zp8 => Sys2Proof.Machine.execAdcZeroPageX zp8 s
  | .adcAbsolute addr16 => Sys2Proof.Machine.execAdcAbsolute addr16 s
  | .adcAbsoluteX addr16 => Sys2Proof.Machine.execAdcAbsoluteX addr16 s
  | .adcAbsoluteY addr16 => Sys2Proof.Machine.execAdcAbsoluteY addr16 s
  | .adcIndirectX zp8 => Sys2Proof.Machine.execAdcIndirectX zp8 s
  | .adcIndirectY zp8 => Sys2Proof.Machine.execAdcIndirectY zp8 s
  | .jmpAbsolute addr16 => Sys2Proof.Machine.execJmpAbsolute addr16 s
  | .jmpIndirect ptr16 => Sys2Proof.Machine.execJmpIndirect ptr16 s
  | .jsr addr16 => Sys2Proof.Machine.execJsr addr16 s
  | .rts => Sys2Proof.Machine.execRts s
  | .clc => Sys2Proof.Machine.execClc s
  | .sec => Sys2Proof.Machine.execSec s
  | .nop => Sys2Proof.Machine.execNop s
  | .brk => Sys2Proof.Machine.execBrk s

end Sys2Proof.Machine
end

