-- ==== Sys2Proof/Machine/Step.lean ====
section
/-! DEFINITION. TICK (40_execute_and_addressing.md R100): one step of the machine, and where the host places an instruction word. -/

namespace Sys2Proof.Machine

/-- One TICK. While FAULT is set it is refused (10_state.md R41). Otherwise the bytes at PC are fetched and decoded; a mapped opcode's
instruction is executed, PC update included (40_execute_and_addressing.md R100, R103), and an unmapped opcode takes the decode failure
(R102). -/
def step (s : State) : Host.Outcome State Fault Refusal :=
  match s.fault with
  | some _ => .refused .coreFaulted
  | none =>
    match decode s.fetchBytes with
    | .ok i _ => exec i s
    | .rejected _ => .next (s.takeDecodeFailure s.fetchOpcode)

/-- `s` with a table word stored at PC, where the next tick fetches (log 9): its three bytes at PC, PC+1 and PC+2. -/
def State.withFetchWord (s : State) (nbits w : Nat) : State :=
  s.writeBytes s.pc (tableWordBytes nbits w)

end Sys2Proof.Machine
end

