-- ==== Sys2Proof/Machine/Ports.lean ====
section
/-! DEFINITION. The core's interface to its host (10_state.md R39 to R41): every port operation on a constructed core, as one atomic
request with a result. NEW is State.new: it makes a fresh core, independent of every other (10_state.md R38, log 12). -/

namespace Sys2Proof.Machine

/-- A port request with its arguments (10_state.md R39). -/
inductive Request where
  | reset
  | load (bytes : List Byte)
  | tick
  | readByte (a : Word)
  | readWord (a : Word)
  | pushByte (v : Byte)
  | pushWord (v : Word)
  | popByte
  | popWord
  deriving DecidableEq, Repr

/-- The result of a port request (10_state.md R39). -/
inductive Response where
  | none
  | byte (v : Byte)
  | word (v : Word)
  | decodeFailure (op : Byte)
  deriving DecidableEq, Repr

/-- RESET (70_reset_and_hazards.md R221): the decrement is the OPEN constant (log 4), the flags are drawn (log 5). -/
def portReset (s : State) : Host.Outcome (State × Response) Fault Refusal :=
  let t := s.resetWith Config.resetSpDecrement (Flags.drawn Config.freeBit s.draws)
  .next ({ t with draws := s.draws + flagDraws }, .none)

/-- LOAD (20_memory.md R61): PC and every register are unchanged. -/
def portLoad (bytes : List Byte) (s : State) : Host.Outcome (State × Response) Fault Refusal :=
  if bytes.length > s.params.memSize.cells - loadOrigin.toNat then .refused .loadTooLong
  else .next (s.writeBytes loadOrigin bytes, .none)

/-- The result TICK reports: the decode failure if this tick raised it (60_exceptions.md R200). -/
def tickResponse (t : State) : Response :=
  match t.fault with
  | none => .none
  | some (.decodeFailure op) => .decodeFailure op

/-- TICK (40_execute_and_addressing.md R100). -/
def portTick (s : State) : Host.Outcome (State × Response) Fault Refusal :=
  match step s with
  | .next t => .next (t, tickResponse t)
  | .fault r => .fault r
  | .refused r => .refused r

/-- READ_BYTE (20_memory.md R51). -/
def portReadByte (a : Word) (s : State) : Host.Outcome (State × Response) Fault Refusal :=
  .next (s, .byte (s.readByte a))

/-- READ_WORD (20_memory.md R53). -/
def portReadWord (a : Word) (s : State) : Host.Outcome (State × Response) Fault Refusal :=
  .next (s, .word (s.readWord a))

/-- PUSH_BYTE (20_memory.md R62). -/
def portPushByte (v : Byte) (s : State) : Host.Outcome (State × Response) Fault Refusal :=
  .next (s.pushByte v, .none)

/-- PUSH_WORD (20_memory.md R64). -/
def portPushWord (v : Word) (s : State) : Host.Outcome (State × Response) Fault Refusal :=
  .next (s.pushWord v, .none)

/-- POP_BYTE (20_memory.md R63). -/
def portPopByte (s : State) : Host.Outcome (State × Response) Fault Refusal :=
  .next (s.popByteState, .byte s.popByteValue)

/-- POP_WORD (20_memory.md R65). -/
def portPopWord (s : State) : Host.Outcome (State × Response) Fault Refusal :=
  .next (s.popWordState, .word s.popWordValue)

/-- One port request. While FAULT is set every one is refused (10_state.md R41). -/
def port (r : Request) (s : State) : Host.Outcome (State × Response) Fault Refusal :=
  match s.fault with
  | some _ => .refused .coreFaulted
  | none =>
    match r with
    | .reset => portReset s
    | .load bytes => portLoad bytes s
    | .tick => portTick s
    | .readByte a => portReadByte a s
    | .readWord a => portReadWord a s
    | .pushByte v => portPushByte v s
    | .pushWord v => portPushWord v s
    | .popByte => portPopByte s
    | .popWord => portPopWord s

/-- A finite sequence of port requests, one after another (10_state.md R40, 70_reset_and_hazards.md R231). -/
def runPorts : List Request → State → Host.Outcome State Fault Refusal
  | [], s => .next s
  | r :: rs, s =>
    match port r s with
    | .next (t, _) => runPorts rs t
    | .fault f => .fault f
    | .refused f => .refused f

end Sys2Proof.Machine
end

