-- ==== Sys2Proof/Safety.lean ====
section
/-! DEFINITION. What counts as a good end of a run (70_reset_and_hazards.md R232), and the invariant of the machine. -/

namespace Sys2Proof.Machine

/-- The state after `n` TICKs with FAULT none throughout, if there is one. -/
def goodTicks : Nat → State → Option State
  | 0, s => if s.fault = none then some s else none
  | n + 1, s =>
    if s.fault = none then
      match step s with
      | .next t => goodTicks n t
      | .fault _ => none
      | .refused _ => none
    else none

/-- The first kind of end: "after the host has issued N TICKs from state S with FAULT = none throughout"
(70_reset_and_hazards.md R232). -/
def EndsAfter (n : Nat) (s t : State) : Prop :=
  goodTicks n s = some t

/-- The second kind of end: "at the first state reached by TICKs from S whose PC equals a stated stop address", with FAULT none
(70_reset_and_hazards.md R232). DESIGN CHOICE: S itself counts as reached, after zero TICKs; the rule does not say (log 16). -/
def EndsAt (stop : Word) (s t : State) : Prop :=
  ∃ n, goodTicks n s = some t ∧ t.pc = stop ∧ ∀ m < n, ∀ u, goodTicks m s = some u → u.pc ≠ stop

/-- The invariant: memory is canonical (the model's list form, log 2) and lists cells of the array only (20_memory.md R50),
and a recorded decode failure names the opcode byte at PC, which has no table entry (60_exceptions.md R200). -/
structure State.Inv (s : State) : Prop where
  canonical : s.mem.wf = true
  within    : s.mem.within s.params.memSize.cells = true
  recorded  : ∀ op, s.fault = some (.decodeFailure op) → s.fetchOpcode = op ∧ lookup op = none

end Sys2Proof.Machine
end

