-- ==== Sys2Proof/Certificates/Slice0/Obligations.lean ====
section
/-! DEFINITION. The statements for the provers. `Forms` lists, for each mnemonic, its bytes as the spec's encoding gives them beside the
instruction and the operand they stand for, so that a statement covers every form. -/

namespace Sys2Proof.Forms

open Sys2Proof.Machine

/-- One form of an instruction that fetches an argument: its bytes, the instruction, its operand. -/
structure DataForm where
  bytes   : List Byte
  instr   : Instr
  operand : DataOperand

/-- One form of an instruction that stores: its bytes, the instruction, its operand. -/
structure StoreForm where
  bytes   : List Byte
  instr   : Instr
  operand : MemOperand

/-- The forms of LDA: every opcode, with operand byte `b` or operand word `hi : lo` (41_load_store_transfer.md R130). -/
def ldaForms (b lo hi : Byte) : List DataForm :=
  [ ⟨[0xA9, b], .ldaImmediate b, .immediate b⟩,
    ⟨[0xA5, b], .ldaZeroPage b, .memory (.zeroPage b)⟩,
    ⟨[0xB5, b], .ldaZeroPageX b, .memory (.zeroPageX b)⟩,
    ⟨[0xAD, lo, hi], .ldaAbsolute (joinBytes hi lo), .memory (.absolute (joinBytes hi lo))⟩,
    ⟨[0xBD, lo, hi], .ldaAbsoluteX (joinBytes hi lo), .memory (.absoluteX (joinBytes hi lo))⟩,
    ⟨[0xB9, lo, hi], .ldaAbsoluteY (joinBytes hi lo), .memory (.absoluteY (joinBytes hi lo))⟩,
    ⟨[0xA1, b], .ldaIndirectX b, .memory (.indirectX b)⟩,
    ⟨[0xB1, b], .ldaIndirectY b, .memory (.indirectY b)⟩ ]

/-- The forms of LDX: every opcode, with operand byte `b` or operand word `hi : lo` (41_load_store_transfer.md R131). -/
def ldxForms (b lo hi : Byte) : List DataForm :=
  [ ⟨[0xA2, b], .ldxImmediate b, .immediate b⟩,
    ⟨[0xA6, b], .ldxZeroPage b, .memory (.zeroPage b)⟩,
    ⟨[0xB6, b], .ldxZeroPageY b, .memory (.zeroPageY b)⟩,
    ⟨[0xAE, lo, hi], .ldxAbsolute (joinBytes hi lo), .memory (.absolute (joinBytes hi lo))⟩,
    ⟨[0xBE, lo, hi], .ldxAbsoluteY (joinBytes hi lo), .memory (.absoluteY (joinBytes hi lo))⟩ ]

/-- The forms of AND: every opcode, with operand byte `b` or operand word `hi : lo` (42_arithmetic_logic.md R140). -/
def andForms (b lo hi : Byte) : List DataForm :=
  [ ⟨[0x29, b], .andImmediate b, .immediate b⟩,
    ⟨[0x25, b], .andZeroPage b, .memory (.zeroPage b)⟩,
    ⟨[0x35, b], .andZeroPageX b, .memory (.zeroPageX b)⟩,
    ⟨[0x2D, lo, hi], .andAbsolute (joinBytes hi lo), .memory (.absolute (joinBytes hi lo))⟩,
    ⟨[0x3D, lo, hi], .andAbsoluteX (joinBytes hi lo), .memory (.absoluteX (joinBytes hi lo))⟩,
    ⟨[0x39, lo, hi], .andAbsoluteY (joinBytes hi lo), .memory (.absoluteY (joinBytes hi lo))⟩,
    ⟨[0x21, b], .andIndirectX b, .memory (.indirectX b)⟩,
    ⟨[0x31, b], .andIndirectY b, .memory (.indirectY b)⟩ ]

/-- The forms of ADC: every opcode, with operand byte `b` or operand word `hi : lo` (42_arithmetic_logic.md R141). -/
def adcForms (b lo hi : Byte) : List DataForm :=
  [ ⟨[0x69, b], .adcImmediate b, .immediate b⟩,
    ⟨[0x65, b], .adcZeroPage b, .memory (.zeroPage b)⟩,
    ⟨[0x75, b], .adcZeroPageX b, .memory (.zeroPageX b)⟩,
    ⟨[0x6D, lo, hi], .adcAbsolute (joinBytes hi lo), .memory (.absolute (joinBytes hi lo))⟩,
    ⟨[0x7D, lo, hi], .adcAbsoluteX (joinBytes hi lo), .memory (.absoluteX (joinBytes hi lo))⟩,
    ⟨[0x79, lo, hi], .adcAbsoluteY (joinBytes hi lo), .memory (.absoluteY (joinBytes hi lo))⟩,
    ⟨[0x61, b], .adcIndirectX b, .memory (.indirectX b)⟩,
    ⟨[0x71, b], .adcIndirectY b, .memory (.indirectY b)⟩ ]

/-- The forms of STA (41_load_store_transfer.md R132). -/
def staForms (b lo hi : Byte) : List StoreForm :=
  [ ⟨[0x85, b], .staZeroPage b, .zeroPage b⟩,
    ⟨[0x95, b], .staZeroPageX b, .zeroPageX b⟩,
    ⟨[0x8D, lo, hi], .staAbsolute (joinBytes hi lo), .absolute (joinBytes hi lo)⟩,
    ⟨[0x9D, lo, hi], .staAbsoluteX (joinBytes hi lo), .absoluteX (joinBytes hi lo)⟩,
    ⟨[0x99, lo, hi], .staAbsoluteY (joinBytes hi lo), .absoluteY (joinBytes hi lo)⟩,
    ⟨[0x81, b], .staIndirectX b, .indirectX b⟩,
    ⟨[0x91, b], .staIndirectY b, .indirectY b⟩ ]

/-- The 45 mapped opcode bytes (30_encoding.md R84). -/
def mappedOpcodes : List Byte :=
  [ 0x00, 0x18, 0x20, 0x21, 0x25, 0x29, 0x2D, 0x31, 0x35, 0x38, 0x39, 0x3D,
    0x4C, 0x60, 0x61, 0x65, 0x69, 0x6C, 0x6D, 0x71, 0x75, 0x79, 0x7D, 0x81,
    0x85, 0x8D, 0x91, 0x95, 0x99, 0x9D, 0xA1, 0xA2, 0xA5, 0xA6, 0xA8, 0xA9,
    0xAD, 0xAE, 0xB1, 0xB5, 0xB6, 0xB9, 0xBD, 0xBE, 0xEA ]

/-- Every byte of memory reads as before. -/
def SameMemory (s t : State) : Prop :=
  ∀ a : Word, t.readByte a = s.readByte a

/-- Every flag but the listed ones is as before. -/
def FlagsKeptBut (written : List Flag) (s t : State) : Prop :=
  ∀ f : Flag, f ∉ written → t.flags.get f = s.flags.get f

/-- FAULT, the parameters and the draw counter are as before. -/
def LatchAndModelFieldsKept (s t : State) : Prop :=
  t.fault = s.fault ∧ t.params = s.params ∧ t.draws = s.draws

/-- JSR's two stack cells are none of the cells of its own two operand bytes (43_control_transfer.md R151). -/
def JsrMissesItsOperand (s : State) : Prop :=
  ∀ q ∈ [s.sp, s.sp - 1], ∀ a ∈ [s.pc + 1, s.pc + 2], s.phys (s.stackAddr q) ≠ s.phys a

/-- The state with one flag set to `x`. -/
def withFlag (f : Flag) (x : Bool) (s : State) : State :=
  { s with flags := s.flags.set f x }

/-- An outcome with its next state, if it has one, changed by `g`. -/
def mapNext (g : State → State) : Host.Outcome State Fault Refusal → Host.Outcome State Fault Refusal
  | .next t => .next (g t)
  | .fault r => .fault r
  | .refused r => .refused r

end Sys2Proof.Forms

open Sys2Proof Sys2Proof.Machine Sys2Proof.Forms

/-! ## Encoding and decode -/

/-- 30_encoding.md R81, R82, R84: every instruction's encoding, followed by anything, decodes to the instruction and leaves what
follows. The opcode bytes are the spec's from general knowledge (G1, log 10). -/
def Obligations.DecodeOfEncodeIsTheInstruction : Prop :=
  ∀ (i : Instr) (rest : List Byte), decode (encode i ++ rest) = .ok i rest

/-- 30_encoding.md R83 to R85: a byte sequence that decodes is the encoding of the instruction it decodes to, followed by what is left
(each word has one meaning). The opcode bytes are the spec's from general knowledge (G1, log 10). -/
def Obligations.EncodeOfDecodeIsTheBytes : Prop :=
  ∀ (bytes rest : List Byte) (i : Instr), decode bytes = .ok i rest → encode i ++ rest = bytes

/-- 30_encoding.md R84, R85: 45 different opcode bytes are mapped and no other; an unmapped one is the decode failure whatever follows
it, and a mapped one followed by two bytes or more decodes. The bytes are the spec's from general knowledge (G1, log 10). -/
def Obligations.ExactlyTheTableOpcodesDecode : Prop :=
  mappedOpcodes.length = 45 ∧ mappedOpcodes.Nodup ∧
  (∀ op ∉ mappedOpcodes, ∀ tail, decode (op :: tail) = .rejected (.decodeFailure op)) ∧
  (∀ op ∈ mappedOpcodes, ∀ b₁ b₂ tail, ∃ i rest, decode (op :: b₁ :: b₂ :: tail) = .ok i rest)

/-- 30_encoding.md R80: the opcode byte alone fixes mnemonic and addressing mode, the mode fixes how many bytes the instruction has, and that is 1,
2 or 3. -/
def Obligations.OpcodeAloneFixesModeAndLength : Prop :=
  ∀ (op : Byte) (tail tail' rest rest' : List Byte) (i i' : Instr),
    decode (op :: tail) = .ok i rest → decode (op :: tail') = .ok i' rest' →
      i.mnemonic = i'.mnemonic ∧ i.mode = i'.mode ∧
      tail.length + 1 = i.mode.len + rest.length ∧ (i.mode.len = 1 ∨ i.mode.len = 2 ∨ i.mode.len = 3)

/-- 30_encoding.md R84: words written out from the spec's encodings decode to the instructions they stand for, one or more of each
family (95_test_vectors.md AM11, AM14, CT3, LS16, P1, P2). -/
def Obligations.SpecWordsDecode : Prop :=
  decode [0xA9, 0x05] = .ok (.ldaImmediate 0x05) [] ∧
  decode [0xB1, 0x40] = .ok (.ldaIndirectY 0x40) [] ∧
  decode [0x8D, 0x00, 0x07] = .ok (.staAbsolute 0x0700) [] ∧
  decode [0xA8] = .ok .tay [] ∧
  decode [0x29, 0x3C] = .ok (.andImmediate 0x3C) [] ∧
  decode [0x69, 0xD5] = .ok (.adcImmediate 0xD5) [] ∧
  decode [0x20, 0x00, 0x07] = .ok (.jsr 0x0700) [] ∧
  decode [0x6C, 0xFF, 0x10] = .ok (.jmpIndirect 0x10FF) [] ∧
  decode [0x18] = .ok .clc [] ∧
  decode [0x00] = .ok .brk [] ∧
  decode [0xD0, 0x10] = .rejected (.decodeFailure 0xD0)

/-! ## The tick -/

/-- 40_execute_and_addressing.md R100, R101, R104: where FAULT is none and the bytes at PC, PC+1 and PC+2 (each address wrapped at 16
bits) decode to an instruction, a step is exec of that instruction at that very state. exec holds the PC update (R103), so step adds
nothing around it. -/
def Obligations.StepRunsTheDecodedInstruction : Prop :=
  ∀ (s : State) (i : Instr) (rest : List Byte), s.fault = none →
    decode [s.readByte s.pc, s.readByte (s.pc + 1), s.readByte (s.pc + 2)] = .ok i rest →
      i.wf = true ∧ step s = exec i s

/-- 40_execute_and_addressing.md R102: on an opcode byte at PC with no table entry the tick sets FAULT to DecodeFailure(op) and changes nothing else. -/
def Obligations.UnmappedOpcodeSetsFaultOnly : Prop :=
  ∀ s : State, s.fault = none → s.readByte s.pc ∉ mappedOpcodes →
    ∃ t, step s = .next t ∧ t.fault = some (.decodeFailure (s.readByte s.pc)) ∧
      t.a = s.a ∧ t.x = s.x ∧ t.y = s.y ∧ t.pc = s.pc ∧ t.sp = s.sp ∧ t.flags = s.flags ∧ t.mem = s.mem ∧
      t.params = s.params ∧ t.draws = s.draws

/-- 60_exceptions.md R200: TICK reports the decode failure with the opcode byte, and reports nothing where an instruction ran. Rests on
the spec's decision D12 and on the model's result type (log 11). -/
def Obligations.TickReportsTheDecodeFailure : Prop :=
  ∀ s : State, s.fault = none →
    (s.readByte s.pc ∉ mappedOpcodes → ∃ t, port .tick s = .next (t, .decodeFailure (s.readByte s.pc)) ∧ step s = .next t) ∧
    (s.readByte s.pc ∈ mappedOpcodes → ∀ t r, port .tick s = .next (t, r) → r = .none ∧ step s = .next t)

/-- 10_state.md R36, R41, 60_exceptions.md R205: once FAULT is set every port request is refused, TICK and RESET included. The spec's
own decision D12 (log 7). -/
def Obligations.FaultedCoreRefusesEveryRequest : Prop :=
  ∀ (s : State) (r : Request), s.fault ≠ none → port r s = .refused .coreFaulted ∧ step s = .refused .coreFaulted

/-- 60_exceptions.md R201: the core has no exception but the decode failure. No port request answers a fault; FAULT is set only by a
TICK on an unmapped opcode; and each of the three refusals arises under its own condition and no other. That no request answers a
fault is the model's (log 6, DEDUCED). The refusals' conditions are 10_state.md R41, 20_memory.md R61 and 43_control_transfer.md R151,
under the spec's decisions D12 (log 7), D16 and D10 (log 8). -/
def Obligations.NoOtherException : Prop :=
  ∀ (r : Request) (s : State),
    (∀ q, port r s ≠ .fault q) ∧
    (∀ q, port r s = .refused q →
      (q = .coreFaulted ∧ s.fault ≠ none) ∨
      (q = .loadTooLong ∧ ∃ bs, r = .load bs ∧ bs.length > s.params.memSize.cells - 0x0600) ∨
      (q = .jsrStackOverlapsOperand ∧ r = .tick ∧ s.readByte s.pc = 0x20 ∧ ¬ JsrMissesItsOperand s)) ∧
    (∀ t v, port r s = .next (t, v) → t.fault ≠ none →
      r = .tick ∧ s.readByte s.pc ∉ mappedOpcodes ∧ t.fault = some (.decodeFailure (s.readByte s.pc)))

/-- 60_exceptions.md R201, 42_arithmetic_logic.md R142, 20_memory.md R68: every instruction runs to a next state in every state,
JSR where its stack writes miss its own operand bytes (43_control_transfer.md R151, the spec's decision D10, log 8). -/
def Obligations.EveryInstructionCompletes : Prop :=
  ∀ (i : Instr) (s : State), (i.mnemonic = .jsr → JsrMissesItsOperand s) → ∃ t, exec i s = .next t

/-! ## Loads, stores and transfers -/

/-- 41_load_store_transfer.md R130: LDA in every form. Z and N from the new A, the spec's decision D5 (log 13). -/
def Obligations.LdaLoadsTheAccumulator : Prop :=
  ∀ (b lo hi : Byte) (rest : List Byte) (s : State), ∀ f ∈ ldaForms b lo hi,
    decode (f.bytes ++ rest) = .ok f.instr rest ∧
    ∃ t, exec f.instr s = .next t ∧
      t.a = s.fetchArgument f.operand ∧ t.flags.z = decide (t.a = 0x00) ∧ t.flags.n = t.a.getLsbD 7 ∧
      t.pc = s.pc + BitVec.ofNat 16 f.bytes.length ∧
      FlagsKeptBut [.z, .n] s t ∧ t.x = s.x ∧ t.y = s.y ∧ t.sp = s.sp ∧ SameMemory s t ∧ LatchAndModelFieldsKept s t

/-- 41_load_store_transfer.md R131: LDX in every form. -/
def Obligations.LdxLoadsX : Prop :=
  ∀ (b lo hi : Byte) (rest : List Byte) (s : State), ∀ f ∈ ldxForms b lo hi,
    decode (f.bytes ++ rest) = .ok f.instr rest ∧
    ∃ t, exec f.instr s = .next t ∧
      t.x = s.fetchArgument f.operand ∧ t.flags.z = decide (t.x = 0x00) ∧ t.flags.n = t.x.getLsbD 7 ∧
      t.pc = s.pc + BitVec.ofNat 16 f.bytes.length ∧
      FlagsKeptBut [.z, .n] s t ∧ t.a = s.a ∧ t.y = s.y ∧ t.sp = s.sp ∧ SameMemory s t ∧ LatchAndModelFieldsKept s t

/-- 41_load_store_transfer.md R132: STA in every form. The one byte stored is at the operand's effective address; every address that
reaches another cell reads as before. -/
def Obligations.StaStoresTheAccumulator : Prop :=
  ∀ (b lo hi : Byte) (rest : List Byte) (s : State), ∀ f ∈ staForms b lo hi,
    decode (f.bytes ++ rest) = .ok f.instr rest ∧
    ∃ t, exec f.instr s = .next t ∧
      t.readByte (s.ea f.operand) = s.a ∧
      (∀ a : Word, s.phys a ≠ s.phys (s.ea f.operand) → t.readByte a = s.readByte a) ∧
      t.pc = s.pc + BitVec.ofNat 16 f.bytes.length ∧
      t.flags = s.flags ∧ t.a = s.a ∧ t.x = s.x ∧ t.y = s.y ∧ t.sp = s.sp ∧ LatchAndModelFieldsKept s t

/-- 41_load_store_transfer.md R133: TAY. -/
def Obligations.TayCopiesAToY : Prop :=
  ∀ (rest : List Byte) (s : State),
    decode (0xA8 :: rest) = .ok .tay rest ∧
    ∃ t, exec .tay s = .next t ∧
      t.y = s.a ∧ t.flags.z = decide (t.y = 0x00) ∧ t.flags.n = t.y.getLsbD 7 ∧ t.pc = s.pc + 1 ∧
      FlagsKeptBut [.z, .n] s t ∧ t.a = s.a ∧ t.x = s.x ∧ t.sp = s.sp ∧ SameMemory s t ∧ LatchAndModelFieldsKept s t

/-! ## Arithmetic and logic -/

/-- 42_arithmetic_logic.md R140: AND in every form, result bit by bit. N from A, the spec's decision D5 (log 13). -/
def Obligations.AndMasksTheAccumulator : Prop :=
  ∀ (b lo hi : Byte) (rest : List Byte) (s : State), ∀ f ∈ andForms b lo hi,
    decode (f.bytes ++ rest) = .ok f.instr rest ∧
    ∃ t, exec f.instr s = .next t ∧
      (∀ k, t.a.getLsbD k = (s.a.getLsbD k && (s.fetchArgument f.operand).getLsbD k)) ∧
      t.flags.z = decide (t.a = 0x00) ∧ t.flags.n = t.a.getLsbD 7 ∧
      t.pc = s.pc + BitVec.ofNat 16 f.bytes.length ∧
      FlagsKeptBut [.z, .n] s t ∧ t.x = s.x ∧ t.y = s.y ∧ t.sp = s.sp ∧ SameMemory s t ∧ LatchAndModelFieldsKept s t

/-- 42_arithmetic_logic.md R141: ADC in every form. The sum is that of the unsigned numbers, without the carry flag and whatever D is
(the spec's decision D6, log 13); C and V are both its carry out. -/
def Obligations.AdcAddsWithoutCarryIn : Prop :=
  ∀ (b lo hi : Byte) (rest : List Byte) (s : State), ∀ f ∈ adcForms b lo hi,
    decode (f.bytes ++ rest) = .ok f.instr rest ∧
    ∃ t, exec f.instr s = .next t ∧
      t.a.toNat = (s.a.toNat + (s.fetchArgument f.operand).toNat) % 0x100 ∧
      t.flags.c = decide (s.a.toNat + (s.fetchArgument f.operand).toNat > 0xFF) ∧ t.flags.v = t.flags.c ∧
      t.flags.z = decide (t.a = 0x00) ∧ t.flags.n = t.a.getLsbD 7 ∧
      t.pc = s.pc + BitVec.ofNat 16 f.bytes.length ∧
      FlagsKeptBut [.c, .v, .z, .n] s t ∧ t.x = s.x ∧ t.y = s.y ∧ t.sp = s.sp ∧ SameMemory s t ∧ LatchAndModelFieldsKept s t

/-! ## Control transfer -/

/-- 43_control_transfer.md R150: JMP Absolute and JMP Indirect. The target of the Indirect form is the word whose low byte is at the
pointer and whose high byte is at the pointer plus 1, with no page wrap (the spec's decision D9, log 13). Nothing but PC changes. -/
def Obligations.JmpGoesToItsTarget : Prop :=
  ∀ (lo hi : Byte) (rest : List Byte) (s : State),
    decode (0x4C :: lo :: hi :: rest) = .ok (.jmpAbsolute (joinBytes hi lo)) rest ∧
    decode (0x6C :: lo :: hi :: rest) = .ok (.jmpIndirect (joinBytes hi lo)) rest ∧
    exec (.jmpAbsolute (joinBytes hi lo)) s = .next { s with pc := joinBytes hi lo } ∧
    exec (.jmpIndirect (joinBytes hi lo)) s =
      .next { s with pc := joinBytes (s.readByte (joinBytes hi lo + 1)) (s.readByte (joinBytes hi lo)) }

/-- 43_control_transfer.md R151: JSR where its stack writes miss its own operand bytes. The return address PC + 2 goes high byte to
`stackaddr(SP)`, low byte to `stackaddr(SP - 1)`; every address that reaches another cell reads as before. Rests on the spec's
decisions D10 and D11 (log 8). -/
def Obligations.JsrPushesReturnAddressAndJumps : Prop :=
  ∀ (lo hi : Byte) (rest : List Byte) (s : State), JsrMissesItsOperand s →
    decode (0x20 :: lo :: hi :: rest) = .ok (.jsr (joinBytes hi lo)) rest ∧
    ∃ t, exec (.jsr (joinBytes hi lo)) s = .next t ∧
      t.pc = joinBytes hi lo ∧ t.sp = s.sp - 2 ∧
      t.readByte (s.stackAddr s.sp) = highByte (s.pc + 2) ∧
      t.readByte (s.stackAddr (s.sp - 1)) = lowByte (s.pc + 2) ∧
      (∀ a : Word, s.phys a ≠ s.phys (s.stackAddr s.sp) → s.phys a ≠ s.phys (s.stackAddr (s.sp - 1)) →
        t.readByte a = s.readByte a) ∧
      t.flags = s.flags ∧ t.a = s.a ∧ t.x = s.x ∧ t.y = s.y ∧ LatchAndModelFieldsKept s t

/-- 43_control_transfer.md R151, the spec's decision D10 (log 8): where a stack write would fall on an operand byte of the JSR itself,
JSR is refused. -/
def Obligations.JsrRefusedOnItsOwnOperand : Prop :=
  ∀ (w : Word) (s : State), ¬ JsrMissesItsOperand s → exec (.jsr w) s = .refused .jsrStackOverlapsOperand

/-- 43_control_transfer.md R152: RTS pops a word, low byte first, and goes to the word plus 1. No stack cell is cleared. -/
def Obligations.RtsPopsAndGoesPastTheWord : Prop :=
  ∀ (rest : List Byte) (s : State),
    decode (0x60 :: rest) = .ok .rts rest ∧
    ∃ t, exec .rts s = .next t ∧
      t.pc = joinBytes (s.readByte (s.stackAddr (s.sp + 2))) (s.readByte (s.stackAddr (s.sp + 1))) + 1 ∧
      t.sp = s.sp + 2 ∧
      t.flags = s.flags ∧ t.a = s.a ∧ t.x = s.x ∧ t.y = s.y ∧ SameMemory s t ∧ LatchAndModelFieldsKept s t

/-- 43_control_transfer.md R154, 95_test_vectors.md S6: a JSR followed by an RTS ends just past the JSR's three bytes with the stack
pointer, A, X, Y and the flags as before, for every target and every stack pointer, the wrapping ones included. -/
def Obligations.JsrThenRtsComesBack : Prop :=
  ∀ (w : Word) (s : State), JsrMissesItsOperand s →
    ∃ t u, exec (.jsr w) s = .next t ∧ exec .rts t = .next u ∧
      u.pc = s.pc + 3 ∧ u.sp = s.sp ∧ u.a = s.a ∧ u.x = s.x ∧ u.y = s.y ∧ u.flags = s.flags

/-! ## Flag and system instructions -/

/-- 44_flag_and_system.md R160: CLC. -/
def Obligations.ClcClearsCarryOnly : Prop :=
  ∀ (rest : List Byte) (s : State),
    decode (0x18 :: rest) = .ok .clc rest ∧
    ∃ t, exec .clc s = .next t ∧ t.flags.c = false ∧ t.pc = s.pc + 1 ∧ FlagsKeptBut [.c] s t ∧
      t.a = s.a ∧ t.x = s.x ∧ t.y = s.y ∧ t.sp = s.sp ∧ SameMemory s t ∧ LatchAndModelFieldsKept s t

/-- 44_flag_and_system.md R161: SEC. -/
def Obligations.SecSetsCarryOnly : Prop :=
  ∀ (rest : List Byte) (s : State),
    decode (0x38 :: rest) = .ok .sec rest ∧
    ∃ t, exec .sec s = .next t ∧ t.flags.c = true ∧ t.pc = s.pc + 1 ∧ FlagsKeptBut [.c] s t ∧
      t.a = s.a ∧ t.x = s.x ∧ t.y = s.y ∧ t.sp = s.sp ∧ SameMemory s t ∧ LatchAndModelFieldsKept s t

/-- 44_flag_and_system.md R162: NOP moves PC by 1 and changes nothing else. -/
def Obligations.NopMovesPcOnly : Prop :=
  ∀ (rest : List Byte) (s : State),
    decode (0xEA :: rest) = .ok .nop rest ∧ exec .nop s = .next { s with pc := s.pc + 1 }

/-- 44_flag_and_system.md R163: BRK moves PC by 1 and changes nothing else, as NOP does. Its length is the spec's decision D8 (log 13). -/
def Obligations.BrkMovesPcOnly : Prop :=
  ∀ (rest : List Byte) (s : State),
    decode (0x00 :: rest) = .ok .brk rest ∧ exec .brk s = .next { s with pc := s.pc + 1 } ∧ exec .brk s = exec .nop s

/-! ## Registers and flags, over all instructions -/

/-- 10_state.md R43: which instruction writes which register and flag, and memory. A register, flag or byte whose column is empty for a
mnemonic is unchanged by it; SP moves by -2 in JSR and +2 in RTS; PC moves by the length alone outside JMP, JSR and RTS. -/
def Obligations.OnlyTheTableWritesEachRegister : Prop :=
  ∀ (i : Instr) (s t : State), exec i s = .next t →
    (i.mnemonic ∉ [.lda, .and, .adc] → t.a = s.a) ∧
    (i.mnemonic ≠ .ldx → t.x = s.x) ∧
    (i.mnemonic ≠ .tay → t.y = s.y) ∧
    (i.mnemonic = .jsr → t.sp = s.sp - 2) ∧ (i.mnemonic = .rts → t.sp = s.sp + 2) ∧
    (i.mnemonic ∉ [.jsr, .rts] → t.sp = s.sp) ∧
    (i.mnemonic ∉ [.jmp, .jsr, .rts] → t.pc = s.pc + BitVec.ofNat 16 i.mode.len) ∧
    (i.mnemonic ∉ [.adc, .clc, .sec] → t.flags.c = s.flags.c) ∧
    (i.mnemonic ∉ [.lda, .ldx, .tay, .and, .adc] → t.flags.z = s.flags.z ∧ t.flags.n = s.flags.n) ∧
    (i.mnemonic ≠ .adc → t.flags.v = s.flags.v) ∧
    (t.flags.i = s.flags.i ∧ t.flags.d = s.flags.d ∧ t.flags.b = s.flags.b) ∧
    (i.mnemonic ∉ [.sta, .jsr] → SameMemory s t) ∧
    LatchAndModelFieldsKept s t

/-- 10_state.md R29, R30, R31: I, D and B are written by no instruction and read by none, so a step commutes with setting any of them
to any value; after construction I is true, D and B are false. -/
def Obligations.InterruptDecimalBreakAreInert : Prop :=
  (∀ f ∈ [Flag.i, Flag.d, Flag.b], ∀ (x : Bool) (s : State), step (withFlag f x s) = mapNext (withFlag f x) (step s)) ∧
  (∀ (p : Params) (m : Memory), (State.new p m).flags.i = true ∧ (State.new p m).flags.d = false ∧ (State.new p m).flags.b = false)

/-- 10_state.md R26: no instruction reads any flag. Two states that differ in flags alone step to next states that differ in flags
alone, or are both refused alike; and each flag was left as it was in both, or written alike in both. -/
def Obligations.NoStepReadsAFlag : Prop :=
  ∀ (s : State) (fs : Flags),
    match step s, step { s with flags := fs } with
    | .next t, .next u =>
      u = { t with flags := u.flags } ∧
        ∀ f : Flag, (t.flags.get f = s.flags.get f ∧ u.flags.get f = fs.get f) ∨ u.flags.get f = t.flags.get f
    | .refused p, .refused q => p = q
    | _, _ => False

/-- 10_state.md R26: every flag has a getter and a setter of its own, with no side effect on another flag. -/
def Obligations.FlagsAreIndependent : Prop :=
  ∀ (fs : Flags) (f g : Flag) (x : Bool), (fs.set f x).get g = if g = f then x else fs.get g

/-- 40_execute_and_addressing.md R117: setZN writes Z and N from the value and no other flag. -/
def Obligations.SetZNWritesZAndN : Prop :=
  ∀ (fs : Flags) (v : Byte),
    ((fs.setZN v).z = true ↔ v.toNat = 0) ∧ ((fs.setZN v).n = true ↔ 0x80 ≤ v.toNat) ∧
      ∀ f, f ∉ [Flag.z, Flag.n] → (fs.setZN v).get f = fs.get f

/-! ## Addressing -/

/-- 40_execute_and_addressing.md R107 to R112: the modes whose effective address no memory read enters, as numbers, and their lengths. -/
def Obligations.DirectModesResolve : Prop :=
  ∀ (s : State) (zp8 : Byte) (w : Word),
    (s.ea (.zeroPage zp8)).toNat = zp8.toNat ∧ (MemOperand.zeroPage zp8).mode.len = 2 ∧
    (s.ea (.zeroPageX zp8)).toNat = (zp8.toNat + s.x.toNat) % 0x100 ∧ (MemOperand.zeroPageX zp8).mode.len = 2 ∧
    (s.ea (.zeroPageY zp8)).toNat = (zp8.toNat + s.y.toNat) % 0x100 ∧ (MemOperand.zeroPageY zp8).mode.len = 2 ∧
    s.ea (.absolute w) = w ∧ (MemOperand.absolute w).mode.len = 3 ∧
    (s.ea (.absoluteX w)).toNat = (w.toNat + s.x.toNat) % 0x10000 ∧ (MemOperand.absoluteX w).mode.len = 3 ∧
    (s.ea (.absoluteY w)).toNat = (w.toNat + s.y.toNat) % 0x10000 ∧ (MemOperand.absoluteY w).mode.len = 3

/-- 40_execute_and_addressing.md R113 to R115: the modes that read a pointer, as numbers. The pointer's high byte is at the next address,
with no page wrap: the spec's decision D9 (log 13). -/
def Obligations.PointerModesResolve : Prop :=
  ∀ (s : State) (zp8 : Byte) (w : Word),
    (s.eaIndirect w).toNat = (s.readByte (w + 1)).toNat * 0x100 + (s.readByte w).toNat ∧
    (let p := BitVec.ofNat 16 ((zp8.toNat + s.x.toNat) % 0x100)
     (s.ea (.indirectX zp8)).toNat = (s.readByte (p + 1)).toNat * 0x100 + (s.readByte p).toNat) ∧
    (let p := BitVec.ofNat 16 zp8.toNat
     (s.ea (.indirectY zp8)).toNat =
       ((s.readByte (p + 1)).toNat * 0x100 + (s.readByte p).toNat + s.y.toNat) % 0x10000)

/-- 40_execute_and_addressing.md R116: the fetched argument is the immediate byte, or the byte at the effective address. -/
def Obligations.FetchArgumentReadsTheOperand : Prop :=
  ∀ (s : State) (imm8 : Byte) (m : MemOperand),
    s.fetchArgument (.immediate imm8) = imm8 ∧ s.fetchArgument (.memory m) = s.mem.read ((s.ea m).toNat % s.params.memSize.cells)

/-! ## Memory and stack -/

/-- 20_memory.md R50: an address reaches the cell of its number modulo the memory size, for both sizes. The spec's decisions D2 and D3
(log 3). -/
def Obligations.PhysReducesModuloMemSize : Prop :=
  ∀ (s : State) (a : Word),
    (s.params.memSize = .cells65535 → s.phys a = if a = 0xFFFF then 0 else a.toNat) ∧
    (s.params.memSize = .cells65536 → s.phys a = a.toNat) ∧ s.phys a < s.params.memSize.cells

/-- 20_memory.md R51, through the port: the byte of the cell reached, and no state changes. -/
def Obligations.ReadBytePortReads : Prop :=
  ∀ (s : State) (a : Word), s.fault = none → port (.readByte a) s = .next (s, .byte (s.mem.read (s.phys a)))

/-- 20_memory.md R53, R54, through the port: low byte at the address, high byte at the next address, which wraps at 16 bits with no page
wrap. The spec's decisions D3 and D9 (log 13). -/
def Obligations.ReadWordPortIsLittleEndian : Prop :=
  ∀ (s : State) (a : Word), s.fault = none →
    ∃ w : Word, port (.readWord a) s = .next (s, .word w) ∧
      w.toNat = (s.readByte (BitVec.ofNat 16 (a.toNat + 1))).toNat * 0x100 + (s.readByte a).toNat

/-- 20_memory.md R52: the byte write sets one cell, no other cell and no register. -/
def Obligations.ByteWriteSetsOneCell : Prop :=
  ∀ (s : State) (a : Word) (v : Byte),
    (∀ k, (s.writeByte a v).mem.read k = if k = s.phys a then v else s.mem.read k) ∧
      s.writeByte a v = { s with mem := (s.writeByte a v).mem }

/-- 20_memory.md R62, R63, through the ports: push_byte writes at the stack pointer and then decrements it, pop_byte increments it and
then reads, both wrapping; nothing else changes. -/
def Obligations.BytePushAndPopPorts : Prop :=
  ∀ (s : State) (v : Byte), s.fault = none →
    (∃ t, port (.pushByte v) s = .next (t, .none) ∧ t = { s with mem := t.mem, sp := t.sp } ∧
      t.sp.toNat = (s.sp.toNat + 0xFF) % 0x100 ∧
      ∀ k, t.mem.read k = if k = s.phys (s.stackAddr s.sp) then v else s.mem.read k) ∧
    (∃ t, port .popByte s = .next (t, .byte (s.readByte (s.stackAddr t.sp))) ∧ t = { s with sp := t.sp } ∧
      t.sp.toNat = (s.sp.toNat + 1) % 0x100)

/-- 20_memory.md R64, R65, through the ports: push_word pushes the high byte and then the low byte, pop_word pops the low byte and then
the high byte; nothing else changes. -/
def Obligations.WordPushAndPopPorts : Prop :=
  ∀ (s : State) (w : Word), s.fault = none →
    (∃ t, port (.pushWord w) s = .next (t, .none) ∧ t = { s with mem := t.mem, sp := t.sp } ∧
      t.sp.toNat = (s.sp.toNat + 0xFE) % 0x100 ∧
      t.readByte (s.stackAddr s.sp) = highByte w ∧ t.readByte (s.stackAddr (s.sp - 1)) = lowByte w ∧
      ∀ k, k ≠ s.phys (s.stackAddr s.sp) → k ≠ s.phys (s.stackAddr (s.sp - 1)) → t.mem.read k = s.mem.read k) ∧
    (∃ t, port .popWord s =
        .next (t, .word (joinBytes (s.readByte (s.stackAddr (s.sp + 2))) (s.readByte (s.stackAddr (s.sp + 1))))) ∧
      t = { s with sp := t.sp } ∧ t.sp.toNat = (s.sp.toNat + 2) % 0x100)

/-- 20_memory.md R74: a push followed at once by a pop gives the value back and leaves SP as before, for bytes and for words, for
every SP, the wrapping ones included. -/
def Obligations.PushThenPopGivesBack : Prop :=
  ∀ (s : State) (v : Byte) (w : Word), s.fault = none →
    (∃ t u, port (.pushByte v) s = .next (t, .none) ∧ port .popByte t = .next (u, .byte v) ∧ u.sp = s.sp) ∧
    (∃ t u, port (.pushWord w) s = .next (t, .none) ∧ port .popWord t = .next (u, .word w) ∧ u.sp = s.sp)

/-- 20_memory.md R55: where neither push wraps SP, a pushed word reads back little-endian at STACK_BASE + SP + 1, SP after the push. -/
def Obligations.PushedWordIsLittleEndianInMemory : Prop :=
  ∀ (s : State) (w : Word), 2 ≤ s.sp.toNat →
    (s.pushWord w).readWord (BitVec.ofNat 16 (s.params.stackBase.addr.toNat + (s.pushWord w).sp.toNat + 1)) = w

/-- 20_memory.md R66, 00_scope.md R10: the stack cell's address is STACK_BASE plus SP, for both admitted bases. The spec's decision D4
(log 3). -/
def Obligations.StackCellAddress : Prop :=
  ∀ (s : State) (q : Byte),
    (s.params.stackBase = .zeroPage → (s.stackAddr q).toNat = q.toNat) ∧
    (s.params.stackBase = .pageOne → (s.stackAddr q).toNat = 0x0100 + q.toNat)

/-- 20_memory.md R61: LOAD puts the bytes from 0x0600 on and changes nothing else; an image longer than the memory from there on is
refused. The spec's decision D16. -/
def Obligations.LoadPlacesTheBytes : Prop :=
  ∀ (bs : List Byte) (s : State), s.fault = none →
    (bs.length ≤ s.params.memSize.cells - 0x0600 →
      ∃ t, port (.load bs) s = .next (t, .none) ∧ t = { s with mem := t.mem } ∧
        (∀ k (h : k < bs.length), t.readByte (BitVec.ofNat 16 (0x0600 + k)) = bs[k]) ∧
        (∀ a : Word, s.phys a < 0x0600 ∨ 0x0600 + bs.length ≤ s.phys a → t.readByte a = s.readByte a)) ∧
    (bs.length > s.params.memSize.cells - 0x0600 → port (.load bs) s = .refused .loadTooLong)

/-- 20_memory.md R72: a byte stored by STA is seen by the next tick's opcode fetch, wherever the next PC points, the byte just stored
included. The spec's decision D18. -/
def Obligations.NextFetchSeesTheStore : Prop :=
  ∀ (b lo hi : Byte) (s t : State), ∀ f ∈ staForms b lo hi, exec f.instr s = .next t →
    t.fetchOpcode = if s.phys t.pc = s.phys (s.ea f.operand) then s.a else s.readByte t.pc

/-- The model's memory (log 2): canonical memories that read alike in every cell are equal, so that equal memories are equal data. -/
def Obligations.CanonicalMemoriesAreDetermined : Prop :=
  ∀ m m' : Memory, m.wf = true → m'.wf = true → (∀ k, m.read k = m'.read k) → m = m'

/-- 00_scope.md R12, 10_state.md R35: every `MEM0`, a function from cell index to byte, is the memory of some core right after NEW that
meets the invariant. The list form is the model's (log 2). -/
def Obligations.EveryMem0CanBeLaunched : Prop :=
  ∀ (p : Params) (mem0 : Nat → Byte), ∃ m : Memory,
    (State.new p m).Inv ∧ ∀ a : Word, (State.new p m).readByte a = mem0 (a.toNat % p.memSize.cells)

/-! ## Construction, reset and the end of a run -/

/-- 70_reset_and_hazards.md R220: the state NEW constructs, for every MEM0 and both values of each parameter. -/
def Obligations.NewConstructsTheState : Prop :=
  ∀ (p : Params) (mem0 : Memory),
    let s := State.new p mem0
    s.a = 0x00 ∧ s.x = 0x00 ∧ s.y = 0x00 ∧ s.pc = 0x0600 ∧ s.sp = 0xFD ∧
    s.flags.c = true ∧ s.flags.i = true ∧ s.flags.z = false ∧ s.flags.d = false ∧ s.flags.b = false ∧ s.flags.v = false ∧
    s.flags.n = false ∧ (∀ k, s.mem.read k = mem0.read k) ∧ s.fault = none ∧ s.params = p

/-- 70_reset_and_hazards.md R221: RESET clears A, X and Y, subtracts the OPEN decrement from SP, leaves PC and every memory cell, and
draws each flag; it is refused while FAULT is set. The decrement and the draws are opaque: this holds for every value of them. The
model's choice: the opaque decrement (log 4; R222, the spec's decision D13), and the draw counter, its advance by seven and the order
of the draws (log 5; R223, the spec's decision D14). -/
def Obligations.ResetReinitialises : Prop :=
  ∀ s : State,
    (s.fault = none → ∃ t, port .reset s = .next (t, .none) ∧
      t.a = 0x00 ∧ t.x = 0x00 ∧ t.y = 0x00 ∧ t.sp = s.sp - Config.resetSpDecrement ∧ t.pc = s.pc ∧ t.mem = s.mem ∧
      t.fault = none ∧ t.params = s.params ∧
      t.flags.c = Config.freeBit s.draws ∧ t.flags.z = Config.freeBit (s.draws + 1) ∧ t.flags.i = Config.freeBit (s.draws + 2) ∧
      t.flags.d = Config.freeBit (s.draws + 3) ∧ t.flags.b = Config.freeBit (s.draws + 4) ∧
      t.flags.v = Config.freeBit (s.draws + 5) ∧ t.flags.n = Config.freeBit (s.draws + 6) ∧ t.draws = s.draws + 7) ∧
    (s.fault ≠ none → port .reset s = .refused .coreFaulted)

/-- 70_reset_and_hazards.md R222, 95_test_vectors.md RS3: two RESETs in a row subtract the decrement twice, modulo 256, and write no
memory. The decrement is OPEN (the spec's decision D13, log 4). -/
def Obligations.TwoResetsDecrementTwice : Prop :=
  ∀ s : State, s.fault = none →
    ∃ u, runPorts [.reset, .reset] s = .next u ∧
      u.sp.toNat = (s.sp.toNat + 2 * (0x100 - Config.resetSpDecrement.toNat)) % 0x100 ∧ u.mem = s.mem ∧ u.pc = s.pc

/-- Every core right after NEW (70_reset_and_hazards.md R220) meets the invariant, for a canonical MEM0 within the array (20_memory.md
R50); State.reset does. The model's choice: State.reset as the state after NEW (log 1), its empty memory and the canonical list form
(log 2). -/
def Obligations.InvariantHoldsAtReset : Prop :=
  State.reset.Inv ∧
  ∀ (p : Params) (mem0 : Memory), mem0.wf = true → mem0.within p.memSize.cells = true → (State.new p mem0).Inv

/-- Every step keeps the invariant: memory stays canonical, which is the model's choice of a list form (log 2), and within the array
(20_memory.md R50), and a recorded decode failure names the unmapped opcode byte at PC (60_exceptions.md R200). -/
def Obligations.StepKeepsTheInvariant : Prop :=
  ∀ s t : State, s.Inv → step s = .next t → t.Inv

/-- Every port request keeps the invariant, and leaves the parameters; only RESET draws (10_state.md R39, R40; log 3, log 5). The
invariant's canonical list form is the model's choice (log 2). -/
def Obligations.PortsKeepTheInvariant : Prop :=
  ∀ (r : Request) (s t : State) (v : Response), s.Inv → port r s = .next (t, v) →
    t.Inv ∧ t.params = s.params ∧ (r ≠ .reset → t.draws = s.draws)

/-- 70_reset_and_hazards.md R232, the spec's decision D23: a good end of either kind has FAULT none, starts from FAULT none, and is one
state; and N ticks then M ticks are N + M ticks. That the start state counts as reached, after zero TICKs, is the model's choice
(log 16). -/
def Obligations.GoodEndsAreUniqueAndUnfaulted : Prop :=
  (∀ n s t, EndsAfter n s t → s.fault = none ∧ t.fault = none) ∧
  (∀ stop s t u, EndsAt stop s t → EndsAt stop s u → t = u ∧ t.pc = stop ∧ t.fault = none) ∧
  (∀ n m s t u, EndsAfter n s t → EndsAfter m t u → EndsAfter (n + m) s u)
end

