-- ==== Sys2Proof/Laws/Decode.lean ====
section
/-! SUPPORT. The byte helpers, and what the decode table and the decoder can answer. -/

namespace Sys2Proof

@[simp] theorem joinBytes_toNat (hi lo : Byte) : (joinBytes hi lo).toNat = hi.toNat * 0x100 + lo.toNat := by
  have h : (hi ++ lo : BitVec (8 + 8)).toNat = hi.toNat <<< 8 ||| lo.toNat := BitVec.toNat_append hi lo
  rw [← Nat.shiftLeft_add_eq_or_of_lt (by simpa using lo.isLt), Nat.shiftLeft_eq] at h
  exact h

@[simp] theorem lowByte_toNat (w : Word) : (lowByte w).toNat = w.toNat % 0x100 := by
  simp [lowByte]

@[simp] theorem highByte_toNat (w : Word) : (highByte w).toNat = w.toNat / 0x100 := by
  have := w.isLt
  simp [highByte, Nat.shiftRight_eq_div_pow]
  omega

@[simp] theorem lowByte_joinBytes (hi lo : Byte) : lowByte (joinBytes hi lo) = lo := by
  have := lo.isLt
  apply BitVec.eq_of_toNat_eq
  simp only [lowByte_toNat, joinBytes_toNat]
  omega

@[simp] theorem highByte_joinBytes (hi lo : Byte) : highByte (joinBytes hi lo) = hi := by
  have := lo.isLt
  apply BitVec.eq_of_toNat_eq
  simp only [highByte_toNat, joinBytes_toNat]
  omega

@[simp] theorem joinBytes_high_low (w : Word) : joinBytes (highByte w) (lowByte w) = w := by
  apply BitVec.eq_of_toNat_eq
  simp only [highByte_toNat, lowByte_toNat, joinBytes_toNat]
  omega

@[simp] theorem zext16_toNat (b : Byte) : (zext16 b).toNat = b.toNat := by
  simp only [zext16, BitVec.toNat_setWidth]
  have := b.isLt
  omega

@[simp] theorem wrap16_zero : wrap16 0 = 0 := rfl

/-- Every row of the table is found: `lookup` gives a row's entry for its opcode. -/
theorem lookup_row (r : OpcodeRow) (h : r ∈ opcodeTable) : lookup r.opcode = some r.entry := by
  simp only [opcodeTable, loadStoreRows, arithmeticRows, controlRows, flagSystemRows, List.cons_append, List.nil_append,
    List.mem_cons, List.not_mem_nil, or_false] at h
  rcases h with rfl | rfl | rfl | rfl | rfl | rfl | rfl | rfl | rfl | rfl | rfl | rfl | rfl | rfl | rfl | rfl | rfl | rfl | rfl |
    rfl | rfl | rfl | rfl | rfl | rfl | rfl | rfl | rfl | rfl | rfl | rfl | rfl | rfl | rfl | rfl | rfl | rfl | rfl | rfl | rfl |
    rfl | rfl | rfl | rfl | rfl <;>
  rfl

/-- What `lookup` finds is a row of the table. -/
theorem lookup_some {op : Byte} {e : Entry} (h : lookup op = some e) : ⟨op, e⟩ ∈ opcodeTable := by
  unfold lookup at h
  cases hf : opcodeTable.find? (fun r => r.opcode == op) with
  | none => simp [hf] at h
  | some r =>
    have hm := List.mem_of_find?_eq_some hf
    have hp := List.find?_some hf
    rw [hf, Option.map_some, Option.some.injEq] at h
    have ho : r.opcode = op := by simpa using hp
    subst ho; subst h
    exact hm

/-- The length of every mode is 1, 2 or 3. -/
theorem Mode.len_cases (m : Mode) : m.len = 1 ∨ m.len = 2 ∨ m.len = 3 := by
  cases m <;> decide

/-- A sequence of at least the mode's bytes gives the operand. -/
theorem takeOperand_some (m : Mode) (bytes : List Byte) (h : m.len ≤ bytes.length + 1) :
    ∃ o rest, takeOperand m bytes = some (o, rest) ∧ bytes.length + 1 = m.len + rest.length := by
  rcases m.len_cases with hm | hm | hm
  · exact ⟨.none, bytes, by simp [takeOperand, hm], by omega⟩
  · match bytes, h with
    | b :: rest, _ => exact ⟨.byte b, rest, by simp [takeOperand, hm], by simp [hm]; omega⟩
    | [], h => simp [hm] at h
  · match bytes, h with
    | lo :: hi :: rest, _ => exact ⟨.word (joinBytes hi lo), rest, by simp [takeOperand, hm], by simp [hm]; omega⟩
    | [_], h => simp [hm] at h
    | [], h => simp [hm] at h

/-- The operand a mode takes has the mode's shape, and is all that is taken. -/
theorem takeOperand_cases {m : Mode} {bytes rest : List Byte} {o : OperandBytes} (h : takeOperand m bytes = some (o, rest)) :
    (m.len = 1 ∧ o = .none ∧ bytes = rest) ∨ (m.len = 2 ∧ ∃ b, o = .byte b ∧ bytes = b :: rest) ∨
      (m.len = 3 ∧ ∃ lo hi, o = .word (joinBytes hi lo) ∧ bytes = lo :: hi :: rest) := by
  unfold takeOperand at h
  split at h
  · next hm => cases h; exact .inl ⟨hm, rfl, rfl⟩
  · next hm => cases h; exact .inr (.inl ⟨hm, _, rfl, rfl⟩)
  · next hm => cases h; exact .inr (.inr ⟨hm, _, _, rfl, rfl⟩)
  · contradiction

/-- The parts of an instruction give it back. -/
theorem Instr.ofParts_raw (i : Instr) : Instr.ofParts i.mnemonic i.mode i.operandBytes = some i := by
  cases i <;> rfl

/-- An instruction made from parts has those parts. -/
theorem Instr.ofParts_some {mn : Mnemonic} {md : Mode} {o : OperandBytes} {i : Instr} (h : Instr.ofParts mn md o = some i) :
    i.mnemonic = mn ∧ i.mode = md ∧ i.operandBytes = o := by
  cases mn <;> cases md <;> cases o <;> cases h <;> exact ⟨rfl, rfl, rfl⟩

/-- Every row's mode and mnemonic go together (30_encoding.md R84), with the row's own number of operand bytes. -/
theorem ofParts_row_shape : ∀ r ∈ opcodeTable,
    (r.entry.mode.len = 1 ∧ (Instr.ofParts r.entry.mnemonic r.entry.mode .none).isSome) ∨
      (r.entry.mode.len = 2 ∧ ∀ b, (Instr.ofParts r.entry.mnemonic r.entry.mode (.byte b)).isSome) ∨
      (r.entry.mode.len = 3 ∧ ∀ w, (Instr.ofParts r.entry.mnemonic r.entry.mode (.word w)).isSome) := by
  intro r hr
  simp only [opcodeTable, loadStoreRows, arithmeticRows, controlRows, flagSystemRows, List.cons_append, List.nil_append,
    List.mem_cons, List.not_mem_nil, or_false] at hr
  rcases hr with rfl | rfl | rfl | rfl | rfl | rfl | rfl | rfl | rfl | rfl | rfl | rfl | rfl | rfl | rfl | rfl | rfl | rfl | rfl |
    rfl | rfl | rfl | rfl | rfl | rfl | rfl | rfl | rfl | rfl | rfl | rfl | rfl | rfl | rfl | rfl | rfl | rfl | rfl | rfl | rfl |
    rfl | rfl | rfl | rfl | rfl <;>
  first
    | exact .inl ⟨rfl, rfl⟩
    | exact .inr (.inl ⟨rfl, fun _ => rfl⟩)
    | exact .inr (.inr ⟨rfl, fun _ => rfl⟩)

/-- A row's entry and the operand its mode takes make an instruction. -/
theorem Instr.ofParts_row {r : OpcodeRow} (hr : r ∈ opcodeTable) {bytes rest : List Byte} {o : OperandBytes}
    (ho : takeOperand r.entry.mode bytes = some (o, rest)) : ∃ i, Instr.ofParts r.entry.mnemonic r.entry.mode o = some i := by
  rw [← Option.isSome_iff_exists]
  have hs := ofParts_row_shape r hr
  rcases takeOperand_cases ho with ⟨hm, rfl, -⟩ | ⟨hm, b, rfl, -⟩ | ⟨hm, lo, hi, rfl, -⟩ <;>
  · simp only [hm] at hs
    simp at hs
    first | exact hs | exact hs _

/-- Everything an accepting decoder says: the opcode's entry, the operand its mode takes, and the instruction they make. -/
theorem decode_ok {bytes rest : List Byte} {i : Instr} (h : decode bytes = .ok i rest) :
    ∃ op tail, bytes = op :: tail ∧ lookup op = some ⟨i.mnemonic, i.mode⟩ ∧
      takeOperand i.mode tail = some (i.operandBytes, rest) := by
  match bytes, h with
  | op :: tail, h =>
    simp only [decode] at h
    cases he : lookup op with
    | none => simp [he] at h
    | some e =>
      cases ho : takeOperand e.mode tail with
      | none => simp [he, ho] at h
      | some p =>
        obtain ⟨o, r⟩ := p
        cases hj : Instr.ofParts e.mnemonic e.mode o with
        | none => simp [he, ho, hj] at h
        | some j =>
          simp only [he, ho, hj, Decoded.ok.injEq] at h
          obtain ⟨rfl, rfl⟩ := h
          obtain ⟨h1, h2, h3⟩ := Instr.ofParts_some hj
          exact ⟨op, tail, rfl, by rw [he, h1, h2], by rw [h2, h3, ho]⟩

/-- The three conditions of `decode_ok` suffice. -/
theorem decode_of {op : Byte} {tail rest : List Byte} {i : Instr} (hl : lookup op = some ⟨i.mnemonic, i.mode⟩)
    (ho : takeOperand i.mode tail = some (i.operandBytes, rest)) : decode (op :: tail) = .ok i rest := by
  simp [decode, hl, ho, Instr.ofParts_raw]

/-- An unmapped opcode is rejected as the decode failure, whatever follows it. -/
theorem decode_unmapped {op : Byte} (h : lookup op = none) (tail : List Byte) :
    decode (op :: tail) = .rejected (.decodeFailure op) := by
  simp [decode, h]

/-- A mapped opcode with enough bytes decodes, with its entry's mnemonic and mode. -/
theorem decode_mapped {op : Byte} {e : Entry} (h : lookup op = some e) {tail : List Byte} (hlen : e.mode.len ≤ tail.length + 1) :
    ∃ i rest, decode (op :: tail) = .ok i rest ∧ i.mnemonic = e.mnemonic ∧ i.mode = e.mode ∧
      tail.length + 1 = e.mode.len + rest.length := by
  obtain ⟨o, rest, ho, hl⟩ := takeOperand_some e.mode tail hlen
  obtain ⟨i, hi⟩ := Instr.ofParts_row (lookup_some h) ho
  obtain ⟨h1, h2, h3⟩ := Instr.ofParts_some hi
  exact ⟨i, rest, decode_of (by rw [h, h1, h2]) (by rw [h2, h3, ho]), h1, h2, hl⟩

end Sys2Proof
end

