-- ==== Sys2Proof/Laws/Flags.lean ====
section
/-! SUPPORT. The flag unit: getter after setter, and what each flag computation writes. -/

namespace Sys2Proof.Machine.Flags

variable (fs : Flags)

@[simp] theorem get_set_same (f : Flag) (x : Bool) : (fs.set f x).get f = x := by
  cases f <;> rfl

theorem get_set_ne {f g : Flag} (h : g ≠ f) (x : Bool) : (fs.set f x).get g = fs.get g := by
  cases f <;> cases g <;> first | rfl | exact absurd rfl h

/-- Flags are equal when every getter says so. -/
theorem ext_get {fs gs : Flags} (h : ∀ f, fs.get f = gs.get f) : fs = gs := by
  cases fs; cases gs
  simp only [Flags.mk.injEq]
  exact ⟨h .c, h .z, h .i, h .d, h .b, h .v, h .n⟩

@[simp] theorem setZN_z (v : Byte) : (fs.setZN v).z = (v == 0x00) := rfl
@[simp] theorem setZN_n (v : Byte) : (fs.setZN v).n = v.getLsbD 7 := rfl
@[simp] theorem setZN_c (v : Byte) : (fs.setZN v).c = fs.c := rfl
@[simp] theorem setZN_v (v : Byte) : (fs.setZN v).v = fs.v := rfl
@[simp] theorem setZN_i (v : Byte) : (fs.setZN v).i = fs.i := rfl
@[simp] theorem setZN_d (v : Byte) : (fs.setZN v).d = fs.d := rfl
@[simp] theorem setZN_b (v : Byte) : (fs.setZN v).b = fs.b := rfl

@[simp] theorem setAdc_c (a arg : Byte) : (fs.setAdc a arg).c = adcCarry a arg := rfl
@[simp] theorem setAdc_v (a arg : Byte) : (fs.setAdc a arg).v = adcCarry a arg := rfl
@[simp] theorem setAdc_z (a arg : Byte) : (fs.setAdc a arg).z = (wrap8 (adcSum a arg) == 0x00) := rfl
@[simp] theorem setAdc_n (a arg : Byte) : (fs.setAdc a arg).n = (wrap8 (adcSum a arg)).getLsbD 7 := rfl
@[simp] theorem setAdc_i (a arg : Byte) : (fs.setAdc a arg).i = fs.i := rfl
@[simp] theorem setAdc_d (a arg : Byte) : (fs.setAdc a arg).d = fs.d := rfl
@[simp] theorem setAdc_b (a arg : Byte) : (fs.setAdc a arg).b = fs.b := rfl

/-- `setZN` writes Z and N alone. -/
theorem setZN_get {f : Flag} (hz : f ≠ .z) (hn : f ≠ .n) (v : Byte) : (fs.setZN v).get f = fs.get f := by
  simp only [setZN, get_set_ne _ hn, get_set_ne _ hz]

/-- ADC writes C, V, Z and N alone. -/
theorem setAdc_get {f : Flag} (hc : f ≠ .c) (hv : f ≠ .v) (hz : f ≠ .z) (hn : f ≠ .n) (a arg : Byte) :
    (fs.setAdc a arg).get f = fs.get f := by
  simp only [setAdc, setZN_get _ hz hn, get_set_ne _ hv, get_set_ne _ hc]

end Sys2Proof.Machine.Flags
end

