-- ==== Sys2Proof/Laws/Memory.lean ====
section
/-! SUPPORT. The memory array: a read after a write, and every memory operation keeps the canonical form. -/

namespace Sys2Proof.Machine.Memory

variable (m : Memory) (k j n : Nat) (v : Byte)

/-! ### Reads -/

@[simp] theorem read_nil : Memory.read [] k = unlistedByte := rfl

theorem read_insert : (m.insert k v).read j = if k = j then v else m.read j := by
  induction m with
  | nil => rfl
  | cons c rest ih =>
    obtain ⟨i, u⟩ := c
    by_cases hlt : k < i
    · simp [Memory.insert, Memory.read, hlt]
    · by_cases heq : i = k
      · subst heq
        by_cases hj : i = j <;> simp [Memory.insert, Memory.read, hj]
      · simp only [Memory.insert, hlt, heq, if_false, Memory.read, ih]
        by_cases hij : i = j
        · subst hij; simp [Ne.symm heq]
        · simp [hij]

theorem read_filter_ne : Memory.read (m.filter fun c => c.1 != k) j = if k = j then unlistedByte else m.read j := by
  induction m with
  | nil => simp
  | cons c rest ih =>
    obtain ⟨i, u⟩ := c
    by_cases hik : i = k
    · subst hik
      simp only [List.filter, bne_self_eq_false, ih, Memory.read]
      by_cases h : i = j <;> simp [h]
    · have hb : (i != k) = true := by simpa using hik
      simp only [List.filter, hb, Memory.read, ih]
      by_cases h : i = j
      · subst h; simp [Ne.symm hik]
      · simp [h]

/-- The byte of a cell after a write: the written byte at that cell, the old byte at every other. -/
theorem read_write : (m.write k v).read j = if k = j then v else m.read j := by
  unfold Memory.write
  split
  · next h => rw [read_filter_ne, h]
  · exact read_insert m k j v

@[simp] theorem read_write_same : (m.write k v).read k = v := by simp [read_write]

theorem read_write_ne (h : k ≠ j) : (m.write k v).read j = m.read j := by simp [read_write, h]

/-! ### The canonical form -/

/-- Rising cell indices, as `List.Pairwise`. -/
theorem sorted_iff : m.sorted = true ↔ m.Pairwise fun c d => c.1 < d.1 := by
  induction m with
  | nil => simp [Memory.sorted]
  | cons c rest ih =>
    cases rest with
    | nil => simp [Memory.sorted]
    | cons d rest =>
      rw [Memory.sorted, Bool.and_eq_true, decide_eq_true_eq, ih, List.pairwise_cons (a := c)]
      constructor
      · rintro ⟨hcd, h⟩
        refine ⟨fun e he => ?_, h⟩
        rcases List.mem_cons.mp he with rfl | he
        · exact hcd
        · exact hcd.trans ((List.pairwise_cons.mp h).1 e he)
      · rintro ⟨hall, h⟩
        exact ⟨hall d (by simp), h⟩

/-- The canonical form, entry by entry. -/
theorem wf_iff : m.wf = true ↔ (m.Pairwise fun c d => c.1 < d.1) ∧ ∀ c ∈ m, c.2 ≠ unlistedByte := by
  simp [Memory.wf, sorted_iff]

theorem within_iff : m.within n = true ↔ ∀ c ∈ m, c.1 < n := by
  simp [Memory.within]

@[simp] theorem wf_nil : Memory.wf [] = true := rfl

@[simp] theorem within_nil : Memory.within n [] = true := rfl

/-- An entry of `insert` is the new one or an old one. -/
theorem mem_insert {c : Host.Cell} (h : c ∈ m.insert k v) : c = (k, v) ∨ c ∈ m := by
  induction m with
  | nil => simpa [Memory.insert] using h
  | cons d rest ih =>
    obtain ⟨i, u⟩ := d
    by_cases hlt : k < i
    · simpa [Memory.insert, hlt] using h
    · by_cases heq : i = k
      · subst heq
        simp only [Memory.insert, lt_self_iff_false, if_false, if_true, List.mem_cons] at h
        rcases h with h | h
        · exact .inl h
        · exact .inr (List.mem_cons_of_mem _ h)
      · simp only [Memory.insert, hlt, heq, if_false, List.mem_cons] at h
        rcases h with h | h
        · exact .inr (by simp [h])
        · rcases ih h with h | h
          · exact .inl h
          · exact .inr (List.mem_cons_of_mem _ h)

theorem pairwise_insert (h : m.Pairwise fun c d => c.1 < d.1) : (m.insert k v).Pairwise fun c d => c.1 < d.1 := by
  induction m with
  | nil => simp [Memory.insert]
  | cons d rest ih =>
    obtain ⟨i, u⟩ := d
    obtain ⟨hd, hr⟩ := List.pairwise_cons.mp h
    by_cases hlt : k < i
    · simp only [Memory.insert, hlt, if_true]
      refine List.pairwise_cons.mpr ⟨fun e he => ?_, h⟩
      rcases List.mem_cons.mp he with rfl | he
      · exact hlt
      · exact hlt.trans (hd e he)
    · by_cases heq : i = k
      · subst heq
        simp only [Memory.insert, lt_self_iff_false, if_false, if_true]
        exact List.pairwise_cons.mpr ⟨hd, hr⟩
      · simp only [Memory.insert, hlt, heq, if_false]
        refine List.pairwise_cons.mpr ⟨fun e he => ?_, ih hr⟩
        rcases mem_insert rest k v he with rfl | he
        · show i < k
          omega
        · exact hd e he

/-- A write keeps the canonical form. -/
theorem wf_write (h : m.wf = true) : (m.write k v).wf = true := by
  rw [wf_iff] at h ⊢
  unfold Memory.write
  split
  · exact ⟨h.1.filter _, fun c hc => h.2 c (List.mem_filter.mp hc).1⟩
  · next hv =>
    refine ⟨pairwise_insert m k v h.1, fun c hc => ?_⟩
    rcases mem_insert m k v hc with rfl | hc
    · exact hv
    · exact h.2 c hc

/-- A write to one of the first `n` cells keeps the list within them. -/
theorem within_write (h : m.within n = true) (hk : k < n) : (m.write k v).within n = true := by
  rw [within_iff] at h ⊢
  unfold Memory.write
  intro c hc
  split at hc
  · exact h c (List.mem_filter.mp hc).1
  · rcases mem_insert m k v hc with rfl | hc
    · exact hk
    · exact h c hc

/-! ### `MEM0` from a function -/

theorem mem_ofFun {f : Nat → Byte} {c : Host.Cell} (h : c ∈ Memory.ofFun f k n) : k ≤ c.1 ∧ c.1 < k + n ∧ c.2 = f c.1 ∧ c.2 ≠ unlistedByte := by
  induction n generalizing k with
  | zero => simp [Memory.ofFun] at h
  | succ n ih =>
    unfold Memory.ofFun at h
    split at h
    · have := ih _ h
      refine ⟨?_, ?_, this.2.2⟩ <;> omega
    · next hf =>
      rcases List.mem_cons.mp h with rfl | h
      · exact ⟨le_refl _, by show k < _; omega, rfl, hf⟩
      · have := ih _ h
        refine ⟨?_, ?_, this.2.2⟩ <;> omega

/-- The memory made from a function is canonical. -/
theorem wf_ofFun (f : Nat → Byte) : (Memory.ofFun f k n).wf = true := by
  rw [wf_iff]
  refine ⟨?_, fun c hc => (mem_ofFun k n hc).2.2.2⟩
  induction n generalizing k with
  | zero => simp [Memory.ofFun]
  | succ n ih =>
    unfold Memory.ofFun
    split
    · exact ih _
    · exact List.pairwise_cons.mpr ⟨fun e he => (mem_ofFun (k + 1) n he).1, ih _⟩

/-- The memory made from a function over `n` cells lists those cells only. -/
theorem within_ofFun (f : Nat → Byte) : (Memory.ofFun f 0 n).within n = true := by
  rw [within_iff]
  intro c hc
  have := (mem_ofFun 0 n hc).2.1
  omega

end Sys2Proof.Machine.Memory
end

