-- ==== Sys2Proof/Laws/State.lean ====
section
/-! SUPPORT. One lemma per field per state update, so that no proof unfolds an update; and what a read sees after each. -/

namespace Sys2Proof.Machine

namespace State

variable (s : State)

/-! ### writeByte -/

@[simp] theorem writeByte_a (k : Word) (v : Byte) : (s.writeByte k v).a = s.a := rfl
@[simp] theorem writeByte_x (k : Word) (v : Byte) : (s.writeByte k v).x = s.x := rfl
@[simp] theorem writeByte_y (k : Word) (v : Byte) : (s.writeByte k v).y = s.y := rfl
@[simp] theorem writeByte_pc (k : Word) (v : Byte) : (s.writeByte k v).pc = s.pc := rfl
@[simp] theorem writeByte_sp (k : Word) (v : Byte) : (s.writeByte k v).sp = s.sp := rfl
@[simp] theorem writeByte_flags (k : Word) (v : Byte) : (s.writeByte k v).flags = s.flags := rfl
@[simp] theorem writeByte_mem (k : Word) (v : Byte) : (s.writeByte k v).mem = s.mem.write (s.phys k) v := rfl
@[simp] theorem writeByte_fault (k : Word) (v : Byte) : (s.writeByte k v).fault = s.fault := rfl
@[simp] theorem writeByte_params (k : Word) (v : Byte) : (s.writeByte k v).params = s.params := rfl
@[simp] theorem writeByte_draws (k : Word) (v : Byte) : (s.writeByte k v).draws = s.draws := rfl

/-! ### pushByte -/

@[simp] theorem pushByte_a (v : Byte) : (s.pushByte v).a = s.a := rfl
@[simp] theorem pushByte_x (v : Byte) : (s.pushByte v).x = s.x := rfl
@[simp] theorem pushByte_y (v : Byte) : (s.pushByte v).y = s.y := rfl
@[simp] theorem pushByte_pc (v : Byte) : (s.pushByte v).pc = s.pc := rfl
@[simp] theorem pushByte_sp (v : Byte) : (s.pushByte v).sp = s.sp - 1 := rfl
@[simp] theorem pushByte_flags (v : Byte) : (s.pushByte v).flags = s.flags := rfl
@[simp] theorem pushByte_mem (v : Byte) : (s.pushByte v).mem = s.mem.write (s.phys (s.stackAddr s.sp)) v := rfl
@[simp] theorem pushByte_fault (v : Byte) : (s.pushByte v).fault = s.fault := rfl
@[simp] theorem pushByte_params (v : Byte) : (s.pushByte v).params = s.params := rfl
@[simp] theorem pushByte_draws (v : Byte) : (s.pushByte v).draws = s.draws := rfl

/-! ### popByteState -/

@[simp] theorem popByteState_a : (s.popByteState).a = s.a := rfl
@[simp] theorem popByteState_x : (s.popByteState).x = s.x := rfl
@[simp] theorem popByteState_y : (s.popByteState).y = s.y := rfl
@[simp] theorem popByteState_pc : (s.popByteState).pc = s.pc := rfl
@[simp] theorem popByteState_sp : (s.popByteState).sp = s.sp + 1 := rfl
@[simp] theorem popByteState_flags : (s.popByteState).flags = s.flags := rfl
@[simp] theorem popByteState_mem : (s.popByteState).mem = s.mem := rfl
@[simp] theorem popByteState_fault : (s.popByteState).fault = s.fault := rfl
@[simp] theorem popByteState_params : (s.popByteState).params = s.params := rfl
@[simp] theorem popByteState_draws : (s.popByteState).draws = s.draws := rfl

/-! ### popWordState -/

@[simp] theorem popWordState_a : (s.popWordState).a = s.a := rfl
@[simp] theorem popWordState_x : (s.popWordState).x = s.x := rfl
@[simp] theorem popWordState_y : (s.popWordState).y = s.y := rfl
@[simp] theorem popWordState_pc : (s.popWordState).pc = s.pc := rfl
@[simp] theorem popWordState_sp : (s.popWordState).sp = s.sp + 1 + 1 := rfl
@[simp] theorem popWordState_flags : (s.popWordState).flags = s.flags := rfl
@[simp] theorem popWordState_mem : (s.popWordState).mem = s.mem := rfl
@[simp] theorem popWordState_fault : (s.popWordState).fault = s.fault := rfl
@[simp] theorem popWordState_params : (s.popWordState).params = s.params := rfl
@[simp] theorem popWordState_draws : (s.popWordState).draws = s.draws := rfl

/-! ### pushWord -/

@[simp] theorem pushWord_a (v : Word) : (s.pushWord v).a = s.a := rfl
@[simp] theorem pushWord_x (v : Word) : (s.pushWord v).x = s.x := rfl
@[simp] theorem pushWord_y (v : Word) : (s.pushWord v).y = s.y := rfl
@[simp] theorem pushWord_pc (v : Word) : (s.pushWord v).pc = s.pc := rfl
@[simp] theorem pushWord_sp (v : Word) : (s.pushWord v).sp = s.sp - 1 - 1 := rfl
@[simp] theorem pushWord_flags (v : Word) : (s.pushWord v).flags = s.flags := rfl
@[simp] theorem pushWord_fault (v : Word) : (s.pushWord v).fault = s.fault := rfl
@[simp] theorem pushWord_params (v : Word) : (s.pushWord v).params = s.params := rfl
@[simp] theorem pushWord_draws (v : Word) : (s.pushWord v).draws = s.draws := rfl

/-! ### advance -/

@[simp] theorem advance_a (n : Nat) : (s.advance n).a = s.a := rfl
@[simp] theorem advance_x (n : Nat) : (s.advance n).x = s.x := rfl
@[simp] theorem advance_y (n : Nat) : (s.advance n).y = s.y := rfl
@[simp] theorem advance_pc (n : Nat) : (s.advance n).pc = s.pc + wrap16 n := rfl
@[simp] theorem advance_sp (n : Nat) : (s.advance n).sp = s.sp := rfl
@[simp] theorem advance_flags (n : Nat) : (s.advance n).flags = s.flags := rfl
@[simp] theorem advance_mem (n : Nat) : (s.advance n).mem = s.mem := rfl
@[simp] theorem advance_fault (n : Nat) : (s.advance n).fault = s.fault := rfl
@[simp] theorem advance_params (n : Nat) : (s.advance n).params = s.params := rfl
@[simp] theorem advance_draws (n : Nat) : (s.advance n).draws = s.draws := rfl

/-! ### jumpTo -/

@[simp] theorem jumpTo_a (t : Word) : (s.jumpTo t).a = s.a := rfl
@[simp] theorem jumpTo_x (t : Word) : (s.jumpTo t).x = s.x := rfl
@[simp] theorem jumpTo_y (t : Word) : (s.jumpTo t).y = s.y := rfl
@[simp] theorem jumpTo_pc (t : Word) : (s.jumpTo t).pc = t := rfl
@[simp] theorem jumpTo_sp (t : Word) : (s.jumpTo t).sp = s.sp := rfl
@[simp] theorem jumpTo_flags (t : Word) : (s.jumpTo t).flags = s.flags := rfl
@[simp] theorem jumpTo_mem (t : Word) : (s.jumpTo t).mem = s.mem := rfl
@[simp] theorem jumpTo_fault (t : Word) : (s.jumpTo t).fault = s.fault := rfl
@[simp] theorem jumpTo_params (t : Word) : (s.jumpTo t).params = s.params := rfl
@[simp] theorem jumpTo_draws (t : Word) : (s.jumpTo t).draws = s.draws := rfl

/-! ### takeDecodeFailure -/

@[simp] theorem takeDecodeFailure_a (op : Byte) : (s.takeDecodeFailure op).a = s.a := rfl
@[simp] theorem takeDecodeFailure_x (op : Byte) : (s.takeDecodeFailure op).x = s.x := rfl
@[simp] theorem takeDecodeFailure_y (op : Byte) : (s.takeDecodeFailure op).y = s.y := rfl
@[simp] theorem takeDecodeFailure_pc (op : Byte) : (s.takeDecodeFailure op).pc = s.pc := rfl
@[simp] theorem takeDecodeFailure_sp (op : Byte) : (s.takeDecodeFailure op).sp = s.sp := rfl
@[simp] theorem takeDecodeFailure_flags (op : Byte) : (s.takeDecodeFailure op).flags = s.flags := rfl
@[simp] theorem takeDecodeFailure_mem (op : Byte) : (s.takeDecodeFailure op).mem = s.mem := rfl
@[simp] theorem takeDecodeFailure_fault (op : Byte) : (s.takeDecodeFailure op).fault = some (.decodeFailure op) := rfl
@[simp] theorem takeDecodeFailure_params (op : Byte) : (s.takeDecodeFailure op).params = s.params := rfl
@[simp] theorem takeDecodeFailure_draws (op : Byte) : (s.takeDecodeFailure op).draws = s.draws := rfl

/-! ### resetWith -/

@[simp] theorem resetWith_a (d : Byte) (fs : Flags) : (s.resetWith d fs).a = 0x00 := rfl
@[simp] theorem resetWith_x (d : Byte) (fs : Flags) : (s.resetWith d fs).x = 0x00 := rfl
@[simp] theorem resetWith_y (d : Byte) (fs : Flags) : (s.resetWith d fs).y = 0x00 := rfl
@[simp] theorem resetWith_pc (d : Byte) (fs : Flags) : (s.resetWith d fs).pc = s.pc := rfl
@[simp] theorem resetWith_sp (d : Byte) (fs : Flags) : (s.resetWith d fs).sp = s.sp - d := rfl
@[simp] theorem resetWith_flags (d : Byte) (fs : Flags) : (s.resetWith d fs).flags = fs := rfl
@[simp] theorem resetWith_mem (d : Byte) (fs : Flags) : (s.resetWith d fs).mem = s.mem := rfl
@[simp] theorem resetWith_fault (d : Byte) (fs : Flags) : (s.resetWith d fs).fault = s.fault := rfl
@[simp] theorem resetWith_params (d : Byte) (fs : Flags) : (s.resetWith d fs).params = s.params := rfl
@[simp] theorem resetWith_draws (d : Byte) (fs : Flags) : (s.resetWith d fs).draws = s.draws := rfl

/-! ### writeBytes -/

@[simp] theorem writeBytes_a (bs : List Byte) (a : Word) : (s.writeBytes a bs).a = s.a := by
  induction bs generalizing s a with
  | nil => rfl
  | cons b bs ih => simp [writeBytes, ih]

@[simp] theorem writeBytes_x (bs : List Byte) (a : Word) : (s.writeBytes a bs).x = s.x := by
  induction bs generalizing s a with
  | nil => rfl
  | cons b bs ih => simp [writeBytes, ih]

@[simp] theorem writeBytes_y (bs : List Byte) (a : Word) : (s.writeBytes a bs).y = s.y := by
  induction bs generalizing s a with
  | nil => rfl
  | cons b bs ih => simp [writeBytes, ih]

@[simp] theorem writeBytes_pc (bs : List Byte) (a : Word) : (s.writeBytes a bs).pc = s.pc := by
  induction bs generalizing s a with
  | nil => rfl
  | cons b bs ih => simp [writeBytes, ih]

@[simp] theorem writeBytes_sp (bs : List Byte) (a : Word) : (s.writeBytes a bs).sp = s.sp := by
  induction bs generalizing s a with
  | nil => rfl
  | cons b bs ih => simp [writeBytes, ih]

@[simp] theorem writeBytes_flags (bs : List Byte) (a : Word) : (s.writeBytes a bs).flags = s.flags := by
  induction bs generalizing s a with
  | nil => rfl
  | cons b bs ih => simp [writeBytes, ih]

@[simp] theorem writeBytes_fault (bs : List Byte) (a : Word) : (s.writeBytes a bs).fault = s.fault := by
  induction bs generalizing s a with
  | nil => rfl
  | cons b bs ih => simp [writeBytes, ih]

@[simp] theorem writeBytes_params (bs : List Byte) (a : Word) : (s.writeBytes a bs).params = s.params := by
  induction bs generalizing s a with
  | nil => rfl
  | cons b bs ih => simp [writeBytes, ih]

@[simp] theorem writeBytes_draws (bs : List Byte) (a : Word) : (s.writeBytes a bs).draws = s.draws := by
  induction bs generalizing s a with
  | nil => rfl
  | cons b bs ih => simp [writeBytes, ih]

/-! ### Cell index and read after each update -/

@[simp] theorem writeByte_phys (k : Word) (v : Byte) (q : Word) : (s.writeByte k v).phys q = s.phys q := rfl
@[simp] theorem writeByte_stackAddr (k : Word) (v : Byte) (q : Byte) : (s.writeByte k v).stackAddr q = s.stackAddr q := rfl
@[simp] theorem pushByte_phys (v : Byte) (q : Word) : (s.pushByte v).phys q = s.phys q := rfl
@[simp] theorem pushByte_stackAddr (v : Byte) (q : Byte) : (s.pushByte v).stackAddr q = s.stackAddr q := rfl
@[simp] theorem popByteState_phys (q : Word) : (s.popByteState).phys q = s.phys q := rfl
@[simp] theorem popByteState_stackAddr (q : Byte) : (s.popByteState).stackAddr q = s.stackAddr q := rfl
@[simp] theorem popByteState_readByte (q : Word) : (s.popByteState).readByte q = s.readByte q := rfl
@[simp] theorem popWordState_phys (q : Word) : (s.popWordState).phys q = s.phys q := rfl
@[simp] theorem popWordState_stackAddr (q : Byte) : (s.popWordState).stackAddr q = s.stackAddr q := rfl
@[simp] theorem popWordState_readByte (q : Word) : (s.popWordState).readByte q = s.readByte q := rfl
@[simp] theorem pushWord_phys (v : Word) (q : Word) : (s.pushWord v).phys q = s.phys q := rfl
@[simp] theorem pushWord_stackAddr (v : Word) (q : Byte) : (s.pushWord v).stackAddr q = s.stackAddr q := rfl
@[simp] theorem advance_phys (n : Nat) (q : Word) : (s.advance n).phys q = s.phys q := rfl
@[simp] theorem advance_stackAddr (n : Nat) (q : Byte) : (s.advance n).stackAddr q = s.stackAddr q := rfl
@[simp] theorem advance_readByte (n : Nat) (q : Word) : (s.advance n).readByte q = s.readByte q := rfl
@[simp] theorem jumpTo_phys (t : Word) (q : Word) : (s.jumpTo t).phys q = s.phys q := rfl
@[simp] theorem jumpTo_stackAddr (t : Word) (q : Byte) : (s.jumpTo t).stackAddr q = s.stackAddr q := rfl
@[simp] theorem jumpTo_readByte (t : Word) (q : Word) : (s.jumpTo t).readByte q = s.readByte q := rfl
@[simp] theorem takeDecodeFailure_phys (op : Byte) (q : Word) : (s.takeDecodeFailure op).phys q = s.phys q := rfl
@[simp] theorem takeDecodeFailure_stackAddr (op : Byte) (q : Byte) : (s.takeDecodeFailure op).stackAddr q = s.stackAddr q := rfl
@[simp] theorem takeDecodeFailure_readByte (op : Byte) (q : Word) : (s.takeDecodeFailure op).readByte q = s.readByte q := rfl
@[simp] theorem resetWith_phys (d : Byte) (fs : Flags) (q : Word) : (s.resetWith d fs).phys q = s.phys q := rfl
@[simp] theorem resetWith_stackAddr (d : Byte) (fs : Flags) (q : Byte) : (s.resetWith d fs).stackAddr q = s.stackAddr q := rfl
@[simp] theorem resetWith_readByte (d : Byte) (fs : Flags) (q : Word) : (s.resetWith d fs).readByte q = s.readByte q := rfl

@[simp] theorem writeBytes_phys (bs : List Byte) (a q : Word) : (s.writeBytes a bs).phys q = s.phys q := by
  simp [phys]

/-! ### Construction -/

variable (p : Params) (m : Memory)

@[simp] theorem new_a : (State.new p m).a = 0x00 := rfl
@[simp] theorem new_x : (State.new p m).x = 0x00 := rfl
@[simp] theorem new_y : (State.new p m).y = 0x00 := rfl
@[simp] theorem new_pc : (State.new p m).pc = 0x0600 := rfl
@[simp] theorem new_sp : (State.new p m).sp = 0xFD := rfl
@[simp] theorem new_flags : (State.new p m).flags = Flags.powerOn := rfl
@[simp] theorem new_mem : (State.new p m).mem = m := rfl
@[simp] theorem new_fault : (State.new p m).fault = none := rfl
@[simp] theorem new_params : (State.new p m).params = p := rfl
@[simp] theorem new_draws : (State.new p m).draws = 0 := rfl

end State

end Sys2Proof.Machine
end

