-- ==== Sys2Proof/Laws/Ops.lean ====
section
/-! SUPPORT. One lemma per shared operation of the memory interface and the stack controller: what a read sees after it, and that it
keeps the memory canonical and within the array. -/

namespace Sys2Proof.Machine.State

variable (s : State)

/-! ### Cells -/

theorem cells_bounds (m : MemSize) : 65535 ≤ m.cells ∧ m.cells ≤ 65536 := by
  cases m <;> decide

/-- Every address reaches a cell of the array (20_memory.md R50). -/
theorem phys_lt (a : Word) : s.phys a < s.params.memSize.cells :=
  Nat.mod_lt _ (by have := (cells_bounds s.params.memSize).1; omega)

/-- An address below the memory size reaches the cell of the same number. -/
theorem phys_of_lt {a : Word} (h : a.toNat < s.params.memSize.cells) : s.phys a = a.toNat :=
  Nat.mod_eq_of_lt h

/-- A stack cell's address is STACK_BASE + SP, with no wrap (20_memory.md R66). -/
theorem stackAddr_toNat (q : Byte) : (s.stackAddr q).toNat = s.params.stackBase.addr.toNat + q.toNat := by
  have hq := q.isLt
  have hb : s.params.stackBase.addr.toNat ≤ 0x100 := by cases s.params.stackBase <;> decide
  simp only [stackAddr, BitVec.toNat_add, zext16_toNat]
  omega

/-- The cell of a stack address. -/
theorem phys_stackAddr (q : Byte) : s.phys (s.stackAddr q) = s.params.stackBase.addr.toNat + q.toNat := by
  have hq := q.isLt
  have hb : s.params.stackBase.addr.toNat ≤ 0x100 := by cases s.params.stackBase <;> decide
  have hc := (cells_bounds s.params.memSize).1
  rw [phys_of_lt, stackAddr_toNat]
  rw [stackAddr_toNat]
  omega

/-- Different stack pointers name different cells. -/
theorem phys_stackAddr_inj {q r : Byte} : s.phys (s.stackAddr q) = s.phys (s.stackAddr r) ↔ q = r := by
  rw [phys_stackAddr, phys_stackAddr, Nat.add_left_cancel_iff]
  exact ⟨BitVec.eq_of_toNat_eq, congrArg _⟩

/-! ### Reads after writes -/

/-- A byte read after a byte write. -/
theorem readByte_writeByte (a b : Word) (v : Byte) :
    (s.writeByte a v).readByte b = if s.phys a = s.phys b then v else s.readByte b := by
  simp [readByte, Memory.read_write]

/-- A byte read after a push. -/
theorem readByte_pushByte (v : Byte) (b : Word) :
    (s.pushByte v).readByte b = if s.phys (s.stackAddr s.sp) = s.phys b then v else s.readByte b := by
  simp [readByte, Memory.read_write]

/-- A byte read after a word push: the low byte lies at `stackaddr(SP - 1)`, the high byte at `stackaddr(SP)`. -/
theorem readByte_pushWord (w : Word) (b : Word) :
    (s.pushWord w).readByte b =
      if s.phys (s.stackAddr (s.sp - 1)) = s.phys b then lowByte w
      else if s.phys (s.stackAddr s.sp) = s.phys b then highByte w else s.readByte b := by
  rw [pushWord, readByte_pushByte, readByte_pushByte]
  rfl

@[simp] theorem jumpTo_popByteValue (t : Word) : (s.jumpTo t).popByteValue = s.popByteValue := rfl

@[simp] theorem jumpTo_popWordValue (t : Word) : (s.jumpTo t).popWordValue = s.popWordValue := rfl

/-- What a word popped right after a word push is. -/
theorem popWordValue_pushWord (w : Word) : (s.pushWord w).popWordValue = w := by
  have hne : s.sp - 1 ≠ s.sp := by
    intro h
    have := congrArg BitVec.toNat h
    have hs := s.sp.isLt
    simp only [BitVec.toNat_sub, show (1 : Byte).toNat = 1 from rfl] at this
    omega
  have h1 : s.sp - 1 - 1 + 1 = s.sp - 1 := by simp
  have h2 : s.sp - 1 - 1 + 1 + 1 = s.sp := by simp
  simp only [popWordValue, popByteValue, popByteState_readByte, popByteState_stackAddr, popByteState_sp, pushWord_sp,
    pushWord_stackAddr, h1, readByte_pushWord, phys_stackAddr_inj, if_true]
  rw [show s.sp - 1 + 1 = s.sp by simp, if_neg hne, if_pos rfl]
  exact joinBytes_high_low w

/-- The cells after a run of byte writes that stays inside the array: the written bytes in their cells, the old bytes elsewhere. -/
theorem read_writeBytes (bs : List Byte) (a : Word) (h : a.toNat + bs.length ≤ s.params.memSize.cells) (k : Nat) :
    (s.writeBytes a bs).mem.read k =
      if a.toNat ≤ k ∧ k < a.toNat + bs.length then bs.getD (k - a.toNat) 0x00 else s.mem.read k := by
  induction bs generalizing s a with
  | nil =>
    rw [if_neg (by simp)]
    rfl
  | cons b bs ih =>
    have hc := (cells_bounds s.params.memSize).2
    simp only [List.length_cons] at h ⊢
    have hlast : bs = [] ∨ (a + 1).toNat = a.toNat + 1 := by
      rcases bs with _ | ⟨c, bs⟩
      · exact .inl rfl
      · refine .inr ?_
        simp only [List.length_cons] at h
        simp only [BitVec.toNat_add, show (1 : Word).toNat = 1 from rfl]
        omega
    have hp : s.phys a = a.toNat := phys_of_lt s (by omega)
    rcases hlast with rfl | ha
    · simp only [writeBytes, writeByte_mem, Memory.read_write, hp, List.length_nil]
      by_cases hk : a.toNat = k
      · subst hk; simp
      · rw [if_neg hk, if_neg (by omega)]
    · rw [writeBytes, ih (s.writeByte a b) (a + 1) (by simp only [writeByte_params]; omega), ha]
      simp only [writeByte_mem, Memory.read_write, hp]
      by_cases hk : a.toNat = k
      · subst hk; simp
      · by_cases hin : a.toNat + 1 ≤ k ∧ k < a.toNat + 1 + bs.length
        · rw [if_pos hin, if_pos (by omega), show k - a.toNat = (k - (a.toNat + 1)) + 1 by omega, List.getD_cons_succ]
        · rw [if_neg hin, if_neg hk, if_neg (by omega)]

/-! ### The canonical form is kept -/

/-- Memory is canonical and lists cells of the array only. -/
def MemOk (s : State) : Prop :=
  s.mem.wf = true ∧ s.mem.within s.params.memSize.cells = true

variable {s}

theorem MemOk.writeByte (h : s.MemOk) (a : Word) (v : Byte) : (s.writeByte a v).MemOk :=
  ⟨Memory.wf_write _ _ _ h.1, Memory.within_write _ _ _ _ h.2 (s.phys_lt a)⟩

theorem MemOk.pushByte (h : s.MemOk) (v : Byte) : (s.pushByte v).MemOk :=
  h.writeByte _ v

theorem MemOk.pushWord (h : s.MemOk) (w : Word) : (s.pushWord w).MemOk :=
  (h.pushByte _).pushByte _

theorem MemOk.writeBytes (h : s.MemOk) (bs : List Byte) (a : Word) : (s.writeBytes a bs).MemOk := by
  induction bs generalizing s a with
  | nil => exact h
  | cons b bs ih => exact ih (h.writeByte a b) (a + 1)

end Sys2Proof.Machine.State
end

