-- ==== Sys2Proof/Laws/PerInstr.lean ====
section
/-! SUPPORT. One law per constructor of Instr. -/

namespace Sys2Proof.Laws.WordShape

/-- The shape of an instruction's word: the instruction is well-formed; its encoding is as long as its mode says (30_encoding.md R81,
R87); and its first byte is an opcode whose table entry is the instruction's own mnemonic and mode (R84). -/
def Statement (i : Instr) : Prop :=
  i.wf = true ∧ (encode i).length = i.mode.len ∧
    ∃ op operand, encode i = op :: operand ∧ lookup op = some ⟨i.mnemonic, i.mode⟩

theorem ldaImmediate (imm8 : Byte) : Statement (.ldaImmediate imm8) :=
  ⟨rfl, rfl, _, _, rfl, rfl⟩

theorem ldaZeroPage (zp8 : Byte) : Statement (.ldaZeroPage zp8) :=
  ⟨rfl, rfl, _, _, rfl, rfl⟩

theorem ldaZeroPageX (zp8 : Byte) : Statement (.ldaZeroPageX zp8) :=
  ⟨rfl, rfl, _, _, rfl, rfl⟩

theorem ldaAbsolute (addr16 : Word) : Statement (.ldaAbsolute addr16) :=
  ⟨rfl, rfl, _, _, rfl, rfl⟩

theorem ldaAbsoluteX (addr16 : Word) : Statement (.ldaAbsoluteX addr16) :=
  ⟨rfl, rfl, _, _, rfl, rfl⟩

theorem ldaAbsoluteY (addr16 : Word) : Statement (.ldaAbsoluteY addr16) :=
  ⟨rfl, rfl, _, _, rfl, rfl⟩

theorem ldaIndirectX (zp8 : Byte) : Statement (.ldaIndirectX zp8) :=
  ⟨rfl, rfl, _, _, rfl, rfl⟩

theorem ldaIndirectY (zp8 : Byte) : Statement (.ldaIndirectY zp8) :=
  ⟨rfl, rfl, _, _, rfl, rfl⟩

theorem ldxImmediate (imm8 : Byte) : Statement (.ldxImmediate imm8) :=
  ⟨rfl, rfl, _, _, rfl, rfl⟩

theorem ldxZeroPage (zp8 : Byte) : Statement (.ldxZeroPage zp8) :=
  ⟨rfl, rfl, _, _, rfl, rfl⟩

theorem ldxZeroPageY (zp8 : Byte) : Statement (.ldxZeroPageY zp8) :=
  ⟨rfl, rfl, _, _, rfl, rfl⟩

theorem ldxAbsolute (addr16 : Word) : Statement (.ldxAbsolute addr16) :=
  ⟨rfl, rfl, _, _, rfl, rfl⟩

theorem ldxAbsoluteY (addr16 : Word) : Statement (.ldxAbsoluteY addr16) :=
  ⟨rfl, rfl, _, _, rfl, rfl⟩

theorem staZeroPage (zp8 : Byte) : Statement (.staZeroPage zp8) :=
  ⟨rfl, rfl, _, _, rfl, rfl⟩

theorem staZeroPageX (zp8 : Byte) : Statement (.staZeroPageX zp8) :=
  ⟨rfl, rfl, _, _, rfl, rfl⟩

theorem staAbsolute (addr16 : Word) : Statement (.staAbsolute addr16) :=
  ⟨rfl, rfl, _, _, rfl, rfl⟩

theorem staAbsoluteX (addr16 : Word) : Statement (.staAbsoluteX addr16) :=
  ⟨rfl, rfl, _, _, rfl, rfl⟩

theorem staAbsoluteY (addr16 : Word) : Statement (.staAbsoluteY addr16) :=
  ⟨rfl, rfl, _, _, rfl, rfl⟩

theorem staIndirectX (zp8 : Byte) : Statement (.staIndirectX zp8) :=
  ⟨rfl, rfl, _, _, rfl, rfl⟩

theorem staIndirectY (zp8 : Byte) : Statement (.staIndirectY zp8) :=
  ⟨rfl, rfl, _, _, rfl, rfl⟩

theorem tay : Statement (.tay) :=
  ⟨rfl, rfl, _, _, rfl, rfl⟩

theorem andImmediate (imm8 : Byte) : Statement (.andImmediate imm8) :=
  ⟨rfl, rfl, _, _, rfl, rfl⟩

theorem andZeroPage (zp8 : Byte) : Statement (.andZeroPage zp8) :=
  ⟨rfl, rfl, _, _, rfl, rfl⟩

theorem andZeroPageX (zp8 : Byte) : Statement (.andZeroPageX zp8) :=
  ⟨rfl, rfl, _, _, rfl, rfl⟩

theorem andAbsolute (addr16 : Word) : Statement (.andAbsolute addr16) :=
  ⟨rfl, rfl, _, _, rfl, rfl⟩

theorem andAbsoluteX (addr16 : Word) : Statement (.andAbsoluteX addr16) :=
  ⟨rfl, rfl, _, _, rfl, rfl⟩

theorem andAbsoluteY (addr16 : Word) : Statement (.andAbsoluteY addr16) :=
  ⟨rfl, rfl, _, _, rfl, rfl⟩

theorem andIndirectX (zp8 : Byte) : Statement (.andIndirectX zp8) :=
  ⟨rfl, rfl, _, _, rfl, rfl⟩

theorem andIndirectY (zp8 : Byte) : Statement (.andIndirectY zp8) :=
  ⟨rfl, rfl, _, _, rfl, rfl⟩

theorem adcImmediate (imm8 : Byte) : Statement (.adcImmediate imm8) :=
  ⟨rfl, rfl, _, _, rfl, rfl⟩

theorem adcZeroPage (zp8 : Byte) : Statement (.adcZeroPage zp8) :=
  ⟨rfl, rfl, _, _, rfl, rfl⟩

theorem adcZeroPageX (zp8 : Byte) : Statement (.adcZeroPageX zp8) :=
  ⟨rfl, rfl, _, _, rfl, rfl⟩

theorem adcAbsolute (addr16 : Word) : Statement (.adcAbsolute addr16) :=
  ⟨rfl, rfl, _, _, rfl, rfl⟩

theorem adcAbsoluteX (addr16 : Word) : Statement (.adcAbsoluteX addr16) :=
  ⟨rfl, rfl, _, _, rfl, rfl⟩

theorem adcAbsoluteY (addr16 : Word) : Statement (.adcAbsoluteY addr16) :=
  ⟨rfl, rfl, _, _, rfl, rfl⟩

theorem adcIndirectX (zp8 : Byte) : Statement (.adcIndirectX zp8) :=
  ⟨rfl, rfl, _, _, rfl, rfl⟩

theorem adcIndirectY (zp8 : Byte) : Statement (.adcIndirectY zp8) :=
  ⟨rfl, rfl, _, _, rfl, rfl⟩

theorem jmpAbsolute (addr16 : Word) : Statement (.jmpAbsolute addr16) :=
  ⟨rfl, rfl, _, _, rfl, rfl⟩

theorem jmpIndirect (ptr16 : Word) : Statement (.jmpIndirect ptr16) :=
  ⟨rfl, rfl, _, _, rfl, rfl⟩

theorem jsr (addr16 : Word) : Statement (.jsr addr16) :=
  ⟨rfl, rfl, _, _, rfl, rfl⟩

theorem rts : Statement (.rts) :=
  ⟨rfl, rfl, _, _, rfl, rfl⟩

theorem clc : Statement (.clc) :=
  ⟨rfl, rfl, _, _, rfl, rfl⟩

theorem sec : Statement (.sec) :=
  ⟨rfl, rfl, _, _, rfl, rfl⟩

theorem nop : Statement (.nop) :=
  ⟨rfl, rfl, _, _, rfl, rfl⟩

theorem brk : Statement (.brk) :=
  ⟨rfl, rfl, _, _, rfl, rfl⟩

end Sys2Proof.Laws.WordShape
end

