-- ==== Sys2Proof/Laws/Step.lean ====
section
/-! SUPPORT. What one instruction and one step can do, said once: every invariant and frame goes through these. -/

namespace Sys2Proof.Machine

/-- Everything an executed instruction can do, by mnemonic. -/
inductive Executes (i : Instr) (s : State) : State → Prop where
  | lda (h : i.mnemonic = .lda) (d : DataOperand) (hd : d.mode = i.mode) :
      Executes i s (({ s with a := s.fetchArgument d, flags := s.flags.setZN (s.fetchArgument d) }).advance i.mode.len)
  | ldx (h : i.mnemonic = .ldx) (d : DataOperand) (hd : d.mode = i.mode) :
      Executes i s (({ s with x := s.fetchArgument d, flags := s.flags.setZN (s.fetchArgument d) }).advance i.mode.len)
  | sta (h : i.mnemonic = .sta) (m : MemOperand) (hm : m.mode = i.mode) :
      Executes i s ((s.writeByte (s.ea m) s.a).advance i.mode.len)
  | tay (h : i.mnemonic = .tay) :
      Executes i s (({ s with y := s.a, flags := s.flags.setZN s.a }).advance i.mode.len)
  | and (h : i.mnemonic = .and) (d : DataOperand) (hd : d.mode = i.mode) :
      Executes i s
        (({ s with a := s.a &&& s.fetchArgument d, flags := s.flags.setZN (s.a &&& s.fetchArgument d) }).advance i.mode.len)
  | adc (h : i.mnemonic = .adc) (d : DataOperand) (hd : d.mode = i.mode) :
      Executes i s
        (({ s with a := wrap8 (adcSum s.a (s.fetchArgument d)), flags := s.flags.setAdc s.a (s.fetchArgument d) }).advance
          i.mode.len)
  | jmp (h : i.mnemonic = .jmp) (t : Word) : Executes i s (s.jumpTo t)
  | jsr (h : i.mnemonic = .jsr) (hov : jsrOverlaps s = false) (t : Word) :
      Executes i s ((s.pushWord (jsrReturn s)).jumpTo t)
  | rts (h : i.mnemonic = .rts) : Executes i s (s.popWordState.jumpTo (s.popWordValue + 1))
  | clc (h : i.mnemonic = .clc) : Executes i s (({ s with flags := s.flags.set .c false }).advance i.mode.len)
  | sec (h : i.mnemonic = .sec) : Executes i s (({ s with flags := s.flags.set .c true }).advance i.mode.len)
  | nop (h : i.mnemonic = .nop) : Executes i s (s.advance i.mode.len)
  | brk (h : i.mnemonic = .brk) : Executes i s (s.advance i.mode.len)

/-- Every instruction but JSR answers a next state. -/
theorem exec_completes (i : Instr) (s : State) (h : i.mnemonic ≠ .jsr) : ∃ t, exec i s = .next t ∧ Executes i s t := by
  cases i
  case jsr => exact absurd rfl h
  all_goals first
    | exact ⟨_, rfl, .lda rfl (.immediate _) rfl⟩
    | exact ⟨_, rfl, .lda rfl (.memory _) rfl⟩
    | exact ⟨_, rfl, .ldx rfl (.immediate _) rfl⟩
    | exact ⟨_, rfl, .ldx rfl (.memory _) rfl⟩
    | exact ⟨_, rfl, .sta rfl _ rfl⟩
    | exact ⟨_, rfl, .tay rfl⟩
    | exact ⟨_, rfl, .and rfl (.immediate _) rfl⟩
    | exact ⟨_, rfl, .and rfl (.memory _) rfl⟩
    | exact ⟨_, rfl, .adc rfl (.immediate _) rfl⟩
    | exact ⟨_, rfl, .adc rfl (.memory _) rfl⟩
    | exact ⟨_, rfl, .jmp rfl _⟩
    | exact ⟨_, rfl, .rts rfl⟩
    | exact ⟨_, rfl, .clc rfl⟩
    | exact ⟨_, rfl, .sec rfl⟩
    | exact ⟨_, rfl, .nop rfl⟩
    | exact ⟨_, rfl, .brk rfl⟩

/-- JSR answers a next state where its stack writes miss its operand bytes, and is refused where they do not
(43_control_transfer.md R151). -/
theorem exec_jsr (w : Word) (s : State) :
    exec (.jsr w) s =
      if jsrOverlaps s then .refused .jsrStackOverlapsOperand else .next ((s.pushWord (jsrReturn s)).jumpTo w) := rfl

/-- The inversion of exec: a next state is what its mnemonic's rule gives. -/
theorem exec_next {i : Instr} {s t : State} (h : exec i s = .next t) : Executes i s t := by
  by_cases hj : i.mnemonic = .jsr
  · cases i <;> first | contradiction | skip
    next w =>
    rw [exec_jsr] at h
    split at h
    · contradiction
    · next ho => cases h; exact .jsr rfl (by simpa using ho) w
  · obtain ⟨u, hu, he⟩ := exec_completes i s hj
    rw [hu] at h
    cases h
    exact he

/-- exec answers no fault. -/
theorem exec_no_fault (i : Instr) (s : State) (r : Fault) : exec i s ≠ .fault r := by
  by_cases hj : i.mnemonic = .jsr
  · cases i <;> first | contradiction | skip
    rw [exec_jsr]
    split <;> exact nofun
  · obtain ⟨u, hu, -⟩ := exec_completes i s hj
    simp [hu]

/-- The one refusal of exec. -/
theorem exec_refused {i : Instr} {s : State} {q : Refusal} (h : exec i s = .refused q) :
    q = .jsrStackOverlapsOperand ∧ (∃ w, i = .jsr w) ∧ jsrOverlaps s = true := by
  by_cases hj : i.mnemonic = .jsr
  · cases i <;> first | contradiction | skip
    next w =>
    rw [exec_jsr] at h
    split at h
    · next ho => cases h; exact ⟨rfl, ⟨w, rfl⟩, ho⟩
    · contradiction
  · obtain ⟨u, hu, -⟩ := exec_completes i s hj
    simp [hu] at h

/-- No instruction changes FAULT, a parameter or the draw counter. -/
theorem Executes.kept {i : Instr} {s t : State} (h : Executes i s t) :
    t.fault = s.fault ∧ t.params = s.params ∧ t.draws = s.draws := by
  cases h <;> exact ⟨rfl, rfl, rfl⟩

/-- An instruction keeps the memory canonical and within the array. -/
theorem Executes.memOk {i : Instr} {s t : State} (h : Executes i s t) (hs : s.MemOk) : t.MemOk := by
  cases h
  case sta m _ _ => exact hs.writeByte _ _
  case jsr => exact hs.pushWord _
  all_goals exact hs

/-! ### Fetch and step -/

/-- The bytes at PC, one by one. -/
theorem bytesAtPc_three (s : State) : s.bytesAtPc 3 = [s.readByte s.pc, s.readByte (s.pc + 1), s.readByte (s.pc + 2)] := by
  simp [State.bytesAtPc, List.range, List.range.loop, wrap16]

/-- The fetched bytes of a mapped opcode decode, to the entry's mnemonic and mode, with nothing left over. -/
theorem decode_fetchBytes_mapped {s : State} {e : Entry} (h : lookup s.fetchOpcode = some e) :
    ∃ i, decode s.fetchBytes = .ok i [] ∧ i.mnemonic = e.mnemonic ∧ i.mode = e.mode := by
  have hb : s.fetchBytes = s.bytesAtPc e.mode.len := by simp [State.fetchBytes, h]
  obtain ⟨n, hn⟩ : ∃ n, e.mode.len = n + 1 := ⟨e.mode.len - 1, by rcases e.mode.len_cases with h | h | h <;> omega⟩
  have hcons : ∃ tail, s.bytesAtPc e.mode.len = s.fetchOpcode :: tail ∧ tail.length = n := by
    rw [hn, State.bytesAtPc, List.range_succ_eq_map]
    exact ⟨(List.map Nat.succ (List.range n)).map fun k => s.readByte (s.pc + wrap16 k), by simp [State.fetchOpcode], by simp⟩
  obtain ⟨tail, ht, hl⟩ := hcons
  obtain ⟨i, rest, hd, h1, h2, hr⟩ := decode_mapped h (tail := tail) (by omega)
  have : rest = [] := List.eq_nil_of_length_eq_zero (by omega)
  subst this
  exact ⟨i, by rw [hb, ht, hd], h1, h2⟩

/-- The fetched bytes of an unmapped opcode are rejected. -/
theorem decode_fetchBytes_unmapped {s : State} (h : lookup s.fetchOpcode = none) :
    decode s.fetchBytes = .rejected (.decodeFailure s.fetchOpcode) := by
  simp [State.fetchBytes, h, decode_unmapped h]

/-- A step in a state whose FAULT is set is refused. -/
theorem step_faulted {s : State} (h : s.fault ≠ none) : step s = .refused .coreFaulted := by
  unfold step
  split
  · rfl
  · contradiction

/-- A step on a mapped opcode runs the instruction fetched. -/
theorem step_mapped {s : State} {e : Entry} (hf : s.fault = none) (h : lookup s.fetchOpcode = some e) :
    ∃ i, decode s.fetchBytes = .ok i [] ∧ i.mnemonic = e.mnemonic ∧ i.mode = e.mode ∧ step s = exec i s := by
  obtain ⟨i, hd, h1, h2⟩ := decode_fetchBytes_mapped h
  exact ⟨i, hd, h1, h2, by simp [step, hf, hd]⟩

/-- A step on an unmapped opcode takes the decode failure. -/
theorem step_unmapped {s : State} (hf : s.fault = none) (h : lookup s.fetchOpcode = none) :
    step s = .next (s.takeDecodeFailure s.fetchOpcode) := by
  simp [step, hf, decode_fetchBytes_unmapped h]

/-- The inversion of step: FAULT was none, and either an instruction was executed or the decode failure was taken. -/
theorem step_next {s t : State} (h : step s = .next t) :
    s.fault = none ∧ ((∃ i e, lookup s.fetchOpcode = some e ∧ i.mnemonic = e.mnemonic ∧ i.mode = e.mode ∧
        decode s.fetchBytes = .ok i [] ∧ exec i s = .next t ∧ Executes i s t) ∨
      (lookup s.fetchOpcode = none ∧ t = s.takeDecodeFailure s.fetchOpcode)) := by
  by_cases hf : s.fault = none
  · refine ⟨hf, ?_⟩
    cases hl : lookup s.fetchOpcode with
    | none =>
      rw [step_unmapped hf hl] at h
      cases h
      exact .inr ⟨rfl, rfl⟩
    | some e =>
      obtain ⟨i, hd, h1, h2, hs⟩ := step_mapped hf hl
      rw [hs] at h
      exact .inl ⟨i, e, rfl, h1, h2, hd, h, exec_next h⟩
  · rw [step_faulted hf] at h
    contradiction

/-- step answers no fault: the one exception of the core is a next state with FAULT set (log 6). -/
theorem step_no_fault (s : State) (r : Fault) : step s ≠ .fault r := by
  by_cases hf : s.fault = none
  · cases hl : lookup s.fetchOpcode with
    | none => simp [step_unmapped hf hl]
    | some e =>
      obtain ⟨i, -, -, -, hs⟩ := step_mapped hf hl
      rw [hs]
      exact exec_no_fault i s r
  · simp [step_faulted hf]

/-- Zero TICKs count: an unfaulted state whose PC is the stop address is its own end (log 16). -/
theorem endsAt_start (s : State) (h : s.fault = none) : EndsAt s.pc s s :=
  ⟨0, by simp [goodTicks, h], rfl, fun _ hm => absurd hm (Nat.not_lt_zero _)⟩

end Sys2Proof.Machine
end

