-- ==== Sys2Proof/Tests/Slice0.lean ====
section
/-! SUPPORT. The model's own tests. Expected values come from 95_test_vectors.md (the vector's number is in the test's comment) or are
written out by hand from the encoding table of 30_encoding.md R84; none is the model's own answer. Then, for every statement with
hypotheses, a witness that meets them. -/

namespace Sys2Proof.Tests

open Sys2Proof.Machine Sys2Proof.Forms

/-! ## Well-formedness -/

/-- Check 1 refuses a mode the mnemonic does not take: STA has no Immediate form (30_encoding.md R84). -/
theorem test_wf_refuses_sta_immediate : RawInstr.wf ⟨.sta, .immediate, .byte 0x05⟩ = false := by decide

/-- Check 1 refuses LDX ZeroPageX: LDX has no X-indexed form (41_load_store_transfer.md R131). -/
theorem test_wf_refuses_ldx_zeroPageX : RawInstr.modeTaken ⟨.ldx, .zeroPageX, .byte 0x05⟩ = false := by decide

/-- Check 2 refuses an operand of another format: Absolute takes a word (30_encoding.md R81). -/
theorem test_wf_refuses_byte_for_absolute : RawInstr.wf ⟨.lda, .absolute, .byte 0x05⟩ = false := by decide

/-- Check 2 refuses an operand on an Implied instruction. -/
theorem test_wf_refuses_operand_on_implied : RawInstr.operandFits ⟨.tay, .implied, .byte 0x05⟩ = false := by decide

theorem test_wf_accepts_ldx_zeroPageY : RawInstr.wf ⟨.ldx, .zeroPageY, .byte 0xF0⟩ = true := by decide

/-! ## Decoding: every constructor's word, written out from 30_encoding.md R81 and R84 -/

theorem test_decode_lda :
    decode [0xA9, 0x44] = .ok (.ldaImmediate 0x44) [] ∧
    decode [0xA5, 0x44] = .ok (.ldaZeroPage 0x44) [] ∧
    decode [0xB5, 0x44] = .ok (.ldaZeroPageX 0x44) [] ∧
    decode [0xAD, 0x34, 0x12] = .ok (.ldaAbsolute 0x1234) [] ∧
    decode [0xBD, 0x34, 0x12] = .ok (.ldaAbsoluteX 0x1234) [] ∧
    decode [0xB9, 0x34, 0x12] = .ok (.ldaAbsoluteY 0x1234) [] ∧
    decode [0xA1, 0x44] = .ok (.ldaIndirectX 0x44) [] ∧
    decode [0xB1, 0x44] = .ok (.ldaIndirectY 0x44) [] := by
  decide

theorem test_decode_ldx :
    decode [0xA2, 0x44] = .ok (.ldxImmediate 0x44) [] ∧
    decode [0xA6, 0x44] = .ok (.ldxZeroPage 0x44) [] ∧
    decode [0xB6, 0x44] = .ok (.ldxZeroPageY 0x44) [] ∧
    decode [0xAE, 0x34, 0x12] = .ok (.ldxAbsolute 0x1234) [] ∧
    decode [0xBE, 0x34, 0x12] = .ok (.ldxAbsoluteY 0x1234) [] := by
  decide

theorem test_decode_sta :
    decode [0x85, 0x44] = .ok (.staZeroPage 0x44) [] ∧
    decode [0x95, 0x44] = .ok (.staZeroPageX 0x44) [] ∧
    decode [0x8D, 0x34, 0x12] = .ok (.staAbsolute 0x1234) [] ∧
    decode [0x9D, 0x34, 0x12] = .ok (.staAbsoluteX 0x1234) [] ∧
    decode [0x99, 0x34, 0x12] = .ok (.staAbsoluteY 0x1234) [] ∧
    decode [0x81, 0x44] = .ok (.staIndirectX 0x44) [] ∧
    decode [0x91, 0x44] = .ok (.staIndirectY 0x44) [] := by
  decide

theorem test_decode_tay :
    decode [0xA8] = .ok .tay [] := by
  decide

theorem test_decode_and :
    decode [0x29, 0x44] = .ok (.andImmediate 0x44) [] ∧
    decode [0x25, 0x44] = .ok (.andZeroPage 0x44) [] ∧
    decode [0x35, 0x44] = .ok (.andZeroPageX 0x44) [] ∧
    decode [0x2D, 0x34, 0x12] = .ok (.andAbsolute 0x1234) [] ∧
    decode [0x3D, 0x34, 0x12] = .ok (.andAbsoluteX 0x1234) [] ∧
    decode [0x39, 0x34, 0x12] = .ok (.andAbsoluteY 0x1234) [] ∧
    decode [0x21, 0x44] = .ok (.andIndirectX 0x44) [] ∧
    decode [0x31, 0x44] = .ok (.andIndirectY 0x44) [] := by
  decide

theorem test_decode_adc :
    decode [0x69, 0x44] = .ok (.adcImmediate 0x44) [] ∧
    decode [0x65, 0x44] = .ok (.adcZeroPage 0x44) [] ∧
    decode [0x75, 0x44] = .ok (.adcZeroPageX 0x44) [] ∧
    decode [0x6D, 0x34, 0x12] = .ok (.adcAbsolute 0x1234) [] ∧
    decode [0x7D, 0x34, 0x12] = .ok (.adcAbsoluteX 0x1234) [] ∧
    decode [0x79, 0x34, 0x12] = .ok (.adcAbsoluteY 0x1234) [] ∧
    decode [0x61, 0x44] = .ok (.adcIndirectX 0x44) [] ∧
    decode [0x71, 0x44] = .ok (.adcIndirectY 0x44) [] := by
  decide

theorem test_decode_jmp :
    decode [0x4C, 0x34, 0x12] = .ok (.jmpAbsolute 0x1234) [] ∧
    decode [0x6C, 0x34, 0x12] = .ok (.jmpIndirect 0x1234) [] := by
  decide

theorem test_decode_jsr :
    decode [0x20, 0x34, 0x12] = .ok (.jsr 0x1234) [] := by
  decide

theorem test_decode_rts :
    decode [0x60] = .ok .rts [] := by
  decide

theorem test_decode_clc :
    decode [0x18] = .ok .clc [] := by
  decide

theorem test_decode_sec :
    decode [0x38] = .ok .sec [] := by
  decide

theorem test_decode_nop :
    decode [0xEA] = .ok .nop [] := by
  decide

theorem test_decode_brk :
    decode [0x00] = .ok .brk [] := by
  decide

/-- 95_test_vectors.md EX1 to EX3 and the source's 0xFF: unmapped opcodes; a cut-off operand; no byte. -/
theorem test_decode_rejects_by_name :
    decode [0xA0, 0x00] = .rejected (.decodeFailure 0xA0) ∧ decode [0xD0] = .rejected (.decodeFailure 0xD0) ∧
    decode [0x02] = .rejected (.decodeFailure 0x02) ∧ decode [0xFF, 0x00] = .rejected (.decodeFailure 0xFF) ∧
    decode [0xAD, 0x34] = .rejected (.truncated 0xAD) ∧ decode [] = .rejected .noBytes := by
  decide

/-- Table words: the second byte is bits 15..8, and bits from nbits up are 0. -/
theorem test_decodeTableWord :
    decodeTableWord 8 0x20 = some (.jsr 0x0000) ∧ decodeTableWord 24 0x07004C = some (.jmpAbsolute 0x0700) ∧
    decodeTableWord 8 0x07A9 = some (.ldaImmediate 0x00) ∧ decodeTableWord 8 0xFF = none := by
  decide

theorem test_encode_jsr : encode (.jsr 0x0700) = [0x20, 0x00, 0x07] := by decide

/-! ## One step, against 95_test_vectors.md -/

/-- The state after one TICK with these bytes at PC. -/
def ticked (s : State) (bytes : List Byte) : Option State :=
  match step (s.writeBytes s.pc bytes) with
  | .next t => some t
  | .fault _ => none
  | .refused _ => none

/-- The start state of 95_test_vectors.md, with cells set. -/
def start (cells : Memory) : State :=
  State.new Params.normative cells

/-- The same with a full 16-bit space. -/
def startFull (cells : Memory) : State :=
  State.new ⟨.cells65536, .zeroPage⟩ cells

/-- AM1. -/
theorem test_lda_immediate_negative :
    (ticked (start []) [0xA9, 0x80]).map (fun t => (t.a, t.flags.z, t.flags.n, t.pc)) =
      some (0x80, false, true, 0x0602) := by
  decide

/-- LS3: N comes from A, not from X. -/
theorem test_lda_immediate_n_from_a :
    (ticked { start [] with x := 0x80 } [0xA9, 0x01]).map (fun t => (t.a, t.flags.n)) =
      some (0x01, false) := by
  decide

/-- AM2. -/
theorem test_lda_zeroPage :
    (ticked (start [(0x0044, 0x33)]) [0xA5, 0x44]).map (fun t => (t.a, t.pc)) =
      some (0x33, 0x0602) := by
  decide

/-- AM3. -/
theorem test_lda_zeroPageX_wraps :
    (ticked { start [(0x007F, 0x11)] with x := 0xFF } [0xB5, 0x80]).map (fun t => t.a) =
      some 0x11 := by
  decide

/-- AM5. -/
theorem test_lda_absolute :
    (ticked (start [(0x1234, 0x44)]) [0xAD, 0x34, 0x12]).map (fun t => (t.a, t.pc)) =
      some (0x44, 0x0603) := by
  decide

/-- AM7. -/
theorem test_lda_absoluteX_wraps :
    (ticked { start [(0x0010, 0x77)] with x := 0x20 } [0xBD, 0xF0, 0xFF]).map (fun t => t.a) =
      some 0x77 := by
  decide

/-- AM8. -/
theorem test_lda_absoluteY_wraps :
    (ticked { start [(0x0000, 0x88)] with y := 0x01 } [0xB9, 0xFF, 0xFF]).map (fun t => t.a) =
      some 0x88 := by
  decide

/-- AM9. -/
theorem test_lda_indirectX_pointer_at_page_edge :
    (ticked { start [(0x00FF, 0x34), (0x0100, 0x12), (0x1234, 0x55)] with x := 0x01 } [0xA1, 0xFE]).map (fun t => t.a) =
      some 0x55 := by
  decide

/-- AM10. -/
theorem test_lda_indirectX_index_wraps :
    (ticked { start [(0x0011, 0x07), (0x0700, 0x99)] with x := 0x20 } [0xA1, 0xF0]).map (fun t => t.a) =
      some 0x99 := by
  decide

/-- AM12. -/
theorem test_lda_indirectY_wraps :
    (ticked { start [(0x0001, 0x3C), (0x0040, 0xFF), (0x0041, 0xFF)] with y := 0x02 } [0xB1, 0x40]).map (fun t => t.a) =
      some 0x3C := by
  decide

/-- AM13. -/
theorem test_lda_indirectY_pointer_at_page_edge :
    (ticked (start [(0x0100, 0x07), (0x0700, 0x5A)]) [0xB1, 0xFF]).map (fun t => t.a) =
      some 0x5A := by
  decide

/-- LS5. -/
theorem test_ldx_immediate :
    (ticked (start []) [0xA2, 0xFF]).map (fun t => (t.x, t.flags.z, t.flags.n)) =
      some (0xFF, false, true) := by
  decide

/-- LS7. -/
theorem test_ldx_zeroPage :
    (ticked (start [(0x0042, 0x81)]) [0xA6, 0x42]).map (fun t => (t.x, t.flags.n)) =
      some (0x81, true) := by
  decide

/-- AM4. -/
theorem test_ldx_zeroPageY_wraps :
    (ticked { start [(0x0010, 0x22)] with y := 0x20 } [0xB6, 0xF0]).map (fun t => t.x) =
      some 0x22 := by
  decide

/-- LS8. -/
theorem test_ldx_absoluteY :
    (ticked { start [(0x1237, 0x10)] with y := 0x03 } [0xBE, 0x34, 0x12]).map (fun t => t.x) =
      some 0x10 := by
  decide

/-- LS9. -/
theorem test_sta_absolute :
    (ticked { start [] with a := 0x5A } [0x8D, 0x00, 0x07]).map (fun t => (t.readByte 0x0700, t.pc)) =
      some (0x5A, 0x0603) := by
  decide

/-- LS10. -/
theorem test_sta_zeroPageX_wraps :
    (ticked { start [] with a := 0x11, x := 0x02 } [0x95, 0xFF]).map (fun t => t.readByte 0x0001) =
      some 0x11 := by
  decide

/-- LS11. -/
theorem test_sta_absoluteX_wraps :
    (ticked { start [] with a := 0x22, x := 0x01 } [0x9D, 0xFF, 0xFF]).map (fun t => t.readByte 0x0000) =
      some 0x22 := by
  decide

/-- LS12. -/
theorem test_sta_top_address_is_cell_0 :
    (ticked { start [] with a := 0x33 } [0x8D, 0xFF, 0xFF]).map (fun t => t.mem.read 0) =
      some 0x33 := by
  decide

/-- LS13: with 65536 cells 0xFFFF is a cell of its own. -/
theorem test_sta_top_address_full_space :
    (ticked { startFull [] with a := 0x33 } [0x8D, 0xFF, 0xFF]).map (fun t => (t.mem.read 0xFFFF, t.mem.read 0)) =
      some (0x33, 0x00) := by
  decide

/-- LS14. -/
theorem test_sta_indirectY :
    (ticked { start [(0x0021, 0x08)] with a := 0x44, y := 0x10 } [0x91, 0x20]).map (fun t => t.readByte 0x0810) =
      some 0x44 := by
  decide

/-- 20_memory.md R52: storing what an unlisted cell reads as removes the entry. -/
theorem test_sta_keeps_canonical_form :
    (ticked (start [(0x0010, 0x05)]) [0x85, 0x10]).map (fun t => (t.mem.read 0x10, t.mem.wf)) =
      some (0x00, true) := by
  decide

/-- LS15. -/
theorem test_tay_zero :
    (ticked { start [] with y := 0x07 } [0xA8]).map (fun t => (t.y, t.flags.z, t.flags.n, t.pc)) =
      some (0x00, true, false, 0x0601) := by
  decide

/-- LS16. -/
theorem test_tay_negative :
    (ticked { start [] with a := 0x80 } [0xA8]).map (fun t => (t.y, t.flags.z, t.flags.n)) =
      some (0x80, false, true) := by
  decide

/-- AL1. -/
theorem test_adc_carry_out :
    (ticked { start [] with a := 0xFF } [0x69, 0x01]).map (fun t => (t.a, t.flags.c, t.flags.v, t.flags.z, t.flags.n)) =
      some (0x00, true, true, true, false) := by
  decide

/-- AL2. -/
theorem test_adc_no_signed_overflow :
    (ticked { start [] with a := 0x50 } [0x69, 0x50]).map (fun t => (t.a, t.flags.c, t.flags.v, t.flags.z, t.flags.n)) =
      some (0xA0, false, false, false, true) := by
  decide

/-- AL4, in ZeroPage mode. -/
theorem test_adc_largest_sum_zeroPage :
    (ticked { start [(0x0010, 0xFF)] with a := 0xFF } [0x65, 0x10]).map (fun t => (t.a, t.flags.c, t.flags.v, t.flags.z, t.flags.n)) =
      some (0xFE, true, true, false, true) := by
  decide

/-- AL8, in Absolute mode. -/
theorem test_adc_ignores_decimal_absolute :
    (ticked { start [(0x1234, 0x01)] with a := 0x09, flags := Flags.powerOn.set .d true } [0x6D, 0x34, 0x12]).map (fun t => (t.a, t.flags.c, t.flags.v, t.flags.z, t.flags.n)) =
      some (0x0A, false, false, false, false) := by
  decide

/-- AL10. -/
theorem test_adc_indirectX :
    (ticked { start [(0x0021, 0x34), (0x0022, 0x12), (0x1234, 0xFF)] with a := 0x01, x := 0x01 } [0x61, 0x20]).map (fun t => (t.a, t.flags.c, t.flags.v, t.flags.z)) =
      some (0x00, true, true, true) := by
  decide

/-- AL11, S5. -/
theorem test_and_immediate :
    (ticked { start [] with a := 0xF0 } [0x29, 0x0F]).map (fun t => (t.a, t.flags.z, t.flags.n, t.flags.c, t.pc)) =
      some (0x00, true, false, true, 0x0602) := by
  decide

/-- AL12. -/
theorem test_and_keeps_carry_and_overflow :
    (ticked { start [] with a := 0xFF, flags := Flags.powerOn.set .v true } [0x29, 0x80]).map (fun t => (t.a, t.flags.c, t.flags.v, t.flags.z, t.flags.n)) =
      some (0x80, true, true, false, true) := by
  decide

/-- AL14. -/
theorem test_and_absoluteY :
    (ticked { start [(0x1235, 0xAA)] with a := 0xCC, y := 0x01 } [0x39, 0x34, 0x12]).map (fun t => (t.a, t.flags.n)) =
      some (0x88, true) := by
  decide

/-- CT1. -/
theorem test_jmp_absolute :
    (ticked (start []) [0x4C, 0x00, 0x07]).map (fun t => (t.pc, t.sp)) =
      some (0x0700, 0xFD) := by
  decide

/-- AM14. -/
theorem test_jmp_indirect_no_page_bug :
    (ticked (start [(0x1000, 0x09), (0x1100, 0x07)]) [0x6C, 0xFF, 0x10]).map (fun t => t.pc) =
      some 0x0700 := by
  decide

/-- AM16: at 0xFFFE with 65535 cells both operand bytes come from cell 0. -/
theorem test_jmp_at_top_of_space :
    (match step { start [(0x0000, 0x07), (0xFFFE, 0x4C)] with pc := 0xFFFE } with
      | .next t => t.pc
      | .fault _ => 0
      | .refused _ => 0) = 0x0707 := by
  decide

/-- AM15: the same with 65536 cells. -/
theorem test_jmp_at_top_of_full_space :
    (match step { startFull [(0x0000, 0x07), (0xFFFE, 0x4C)] with pc := 0xFFFE } with
      | .next t => t.pc
      | .fault _ => 0
      | .refused _ => 0) = 0x0700 := by
  decide

/-- CT3. -/
theorem test_jsr :
    (ticked (start []) [0x20, 0x00, 0x07]).map (fun t => (t.pc, t.sp, t.readByte 0x00FD, t.readByte 0x00FC)) =
      some (0x0700, 0xFB, 0x06, 0x02) := by
  decide

/-- CT4. -/
theorem test_jsr_wraps_sp :
    (ticked { start [] with sp := 0x00 } [0x20, 0x00, 0x07]).map (fun t => (t.sp, t.readByte 0x0000, t.readByte 0x00FF)) =
      some (0xFE, 0x06, 0x02) := by
  decide

/-- CT11: STACK_BASE = 0x0100. -/
theorem test_jsr_page_one :
    (ticked (State.new ⟨.cells65535, .pageOne⟩ []) [0x20, 0x00, 0x07]).map
        (fun t => (t.readByte 0x01FD, t.readByte 0x01FC, t.readByte 0x00FD, t.sp)) =
      some (0x06, 0x02, 0x00, 0xFB) := by
  decide

/-- CT7: a JSR whose operand bytes are its own stack cells is refused. -/
theorem test_jsr_refused_on_its_operand :
    (match step { start [(0x00FB, 0x20)] with pc := 0x00FB } with
      | .next _ => none
      | .fault _ => none
      | .refused q => some q) = some .jsrStackOverlapsOperand := by
  decide

/-- CT8. -/
theorem test_rts_wraps_pc :
    (ticked (start [(0x00FE, 0xFF), (0x00FF, 0xFF)]) [0x60]).map (fun t => (t.pc, t.sp)) =
      some (0x0000, 0xFF) := by
  decide

/-- CT9. -/
theorem test_rts_wraps_sp :
    (ticked { start [(0x0000, 0x02), (0x0001, 0x07)] with sp := 0xFF } [0x60]).map (fun t => (t.pc, t.sp)) =
      some (0x0703, 0x01) := by
  decide

/-- FS1. -/
theorem test_clc :
    (ticked (start []) [0x18]).map (fun t => (t.flags.c, t.pc)) =
      some (false, 0x0601) := by
  decide

/-- FS3. -/
theorem test_sec :
    (ticked { start [] with flags := Flags.cleared } [0x38]).map (fun t => (t.flags.c, t.pc)) =
      some (true, 0x0601) := by
  decide

/-- FS4. -/
theorem test_nop :
    (ticked (start []) [0xEA]).map (fun t => (t.pc, t.a, t.sp)) =
      some (0x0601, 0x00, 0xFD) := by
  decide

/-- FS5. -/
theorem test_brk :
    (ticked (start []) [0x00]).map (fun t => (t.pc, t.flags.i, t.flags.b, t.sp)) =
      some (0x0601, true, false, 0xFD) := by
  decide

/-- EX5, S8. -/
theorem test_unmapped_opcode_faults :
    (ticked (start []) [0xFF, 0x00]).map (fun t => (t.fault, t.pc, t.flags)) =
      some (some (.decodeFailure 0xFF), 0x0600, Flags.powerOn) := by
  decide

/-- EX4: TICK and RESET on a faulted core. -/
theorem test_faulted_core_is_refused :
    (match step { start [] with fault := some (.decodeFailure 0xFF) }, port .reset { start [] with fault := some (.decodeFailure 0xFF) } with
      | .refused p, .refused q => some (p, q)
      | _, _ => none) = some (.coreFaulted, .coreFaulted) := by
  decide

/-- R220, RS1: the state NEW constructs. -/
theorem test_reset_state :
    State.reset = { a := 0x00, x := 0x00, y := 0x00, pc := 0x0600, sp := 0xFD, flags := ⟨true, false, true, false, false, false, false⟩,
                    mem := [], fault := none, params := ⟨.cells65535, .zeroPage⟩, draws := 0 } := by
  decide

/-- MS7: with 65535 cells READ_WORD(0xFFFF) takes both bytes from cell 0. -/
theorem test_readWord_top : (start [(0x0000, 0x12)]).readWord 0xFFFF = 0x1212 := by decide

/-- MS5: no page wrap. -/
theorem test_readWord_page_edge : (start [(0x10FF, 0x34), (0x1100, 0x12)]).readWord 0x10FF = 0x1234 := by decide

/-- MS4: a word pushed at SP = 0x00. -/
theorem test_pushWord_wraps :
    ((({ start [] with sp := 0x00 } : State).pushWord 0xABCD).mem, ({ start [] with sp := 0x00 } : State).pushWord 0xABCD |>.sp) =
      ([(0x0000, 0xAB), (0x00FF, 0xCD)], 0xFE) := by
  decide

/-- MS11: LOAD changes memory only. -/
theorem test_load_keeps_registers :
    (match port (.load [0xEA]) { start [(0x0600, 0xA9), (0x0601, 0x05)] with pc := 0x0602, a := 0x05 } with
      | .next (t, _) => some (t.mem, t.pc, t.a)
      | .fault _ => none
      | .refused _ => none) = some ([(0x0600, 0xEA), (0x0601, 0x05)], 0x0602, 0x05) := by
  decide

/-- MS9: 64,000 bytes are too many for 65535 cells. -/
theorem test_load_too_long : port (.load (List.replicate 64000 0x00)) (start []) = .refused .loadTooLong := by
  simp only [port, portLoad, start, State.new_fault, State.new_params, List.length_replicate]
  rw [if_pos (by decide)]

/-- RS2: RESET keeps PC and memory. -/
theorem test_reset_keeps_pc_and_memory :
    (match port .reset { start [(0x0010, 0x05)] with a := 0x05, y := 0x05, pc := 0x060A } with
      | .next (t, _) => some (t.a, t.y, t.pc, t.mem)
      | .fault _ => none
      | .refused _ => none) = some (0x00, 0x00, 0x060A, [(0x0010, 0x05)]) := by
  decide

/-- The host's placement of a table word: step runs it. -/
theorem test_withFetchWord_runs :
    (match step (State.reset.withFetchWord 8 0xA2) with
      | .next t => some (t.x, t.pc)
      | .fault _ => none
      | .refused _ => none) = some (0x00, 0x0602) := by
  decide

/-! ## Witnesses: for every statement with hypotheses, a state and operands that meet them all -/

/-- A core right after NEW with `bytes` loaded at 0x0600. -/
def loaded (bytes : List Byte) : State :=
  (start []).writeBytes 0x0600 bytes

/-- A core with the decode failure of 0xFF recorded at 0x0600. -/
def faulted : State :=
  { loaded [0xFF] with fault := some (.decodeFailure 0xFF) }

/-- The state of CT7. -/
def overlapping : State :=
  { start [(0x00FB, 0x20)] with pc := 0x00FB }

/-- The statement's condition beside the meaning's own check. -/
theorem misses_iff (s : State) : JsrMissesItsOperand s ↔ jsrOverlaps s = false := by
  simp [JsrMissesItsOperand, jsrOverlaps]

theorem reset_jsr_misses : JsrMissesItsOperand State.reset := (misses_iff _).mpr (by decide)

theorem overlapping_jsr_hits : ¬ JsrMissesItsOperand overlapping :=
  fun h => absurd ((misses_iff _).mp h) (by decide)

/-- The lower boundary of the overlap: the second operand byte alone is a stack cell. -/
theorem overlapping_by_one_hits : ¬ JsrMissesItsOperand { overlapping with pc := 0x00FA } :=
  fun h => absurd ((misses_iff _).mp h) (by decide)

/-- One below it: no overlap. -/
theorem below_overlap_misses : JsrMissesItsOperand { overlapping with pc := 0x00F9 } := (misses_iff _).mpr (by decide)

/-- One above the upper boundary: no overlap. -/
theorem above_overlap_misses : JsrMissesItsOperand { overlapping with pc := 0x00FD } := (misses_iff _).mpr (by decide)

theorem witness_EncodeOfDecodeIsTheBytes : decode [0xAD, 0x34, 0x12, 0x60] = .ok (.ldaAbsolute 0x1234) [0x60] := by decide

theorem witness_ExactlyTheTableOpcodesDecode :
    (0xFF : Byte) ∉ mappedOpcodes ∧ (0x01 : Byte) ∉ mappedOpcodes ∧ (0x00 : Byte) ∈ mappedOpcodes ∧ (0xEA : Byte) ∈ mappedOpcodes := by
  decide

theorem witness_OpcodeAloneFixesModeAndLength :
    decode [0xB1, 0x40] = .ok (.ldaIndirectY 0x40) [] ∧ decode [0xB1, 0x20, 0x00] = .ok (.ldaIndirectY 0x20) [0x00] := by
  decide

theorem witness_StepRunsTheDecodedInstruction :
    let s := loaded [0xA9, 0x05]
    s.fault = none ∧ decode [s.readByte s.pc, s.readByte (s.pc + 1), s.readByte (s.pc + 2)] = .ok (.ldaImmediate 0x05) [0x00] := by
  decide

/-- The same at the top of the address space, where the operand bytes come from addresses 0xFFFF and 0x0000. -/
theorem witness_StepRunsTheDecodedInstruction_top :
    let s := { start [(0x0000, 0x07), (0xFFFE, 0x4C)] with pc := 0xFFFE }
    s.fault = none ∧ decode [s.readByte s.pc, s.readByte (s.pc + 1), s.readByte (s.pc + 2)] = .ok (.jmpAbsolute 0x0707) [] := by
  decide

theorem witness_UnmappedOpcodeSetsFaultOnly :
    (loaded [0xFF]).fault = none ∧ (loaded [0xFF]).readByte (loaded [0xFF]).pc ∉ mappedOpcodes := by
  decide

theorem witness_TickReportsTheDecodeFailure :
    (loaded [0xA8]).fault = none ∧ (loaded [0xA8]).readByte (loaded [0xA8]).pc ∈ mappedOpcodes ∧
      ∃ t, port .tick (loaded [0xA8]) = .next (t, .none) :=
  ⟨by decide, by decide, _, rfl⟩

theorem witness_FaultedCoreRefusesEveryRequest : faulted.fault ≠ none := by decide

theorem witness_NoOtherException_faulted : port .popWord faulted = .refused .coreFaulted := rfl

theorem witness_NoOtherException_overlap : port .tick overlapping = .refused .jsrStackOverlapsOperand := rfl

theorem witness_NoOtherException_decodeFailure :
    ∃ t v, port .tick (loaded [0xFF]) = .next (t, v) ∧ t.fault ≠ none :=
  ⟨_, _, rfl, by decide⟩

theorem witness_EveryInstructionCompletes :
    (Instr.jsr 0x0700).mnemonic = .jsr ∧ JsrMissesItsOperand State.reset ∧ Instr.rts.mnemonic ≠ .jsr :=
  ⟨rfl, reset_jsr_misses, by decide⟩

theorem witness_LdaLoadsTheAccumulator :
    (⟨[0xB1, 0x40], .ldaIndirectY 0x40, .memory (.indirectY 0x40)⟩ : DataForm) ∈ ldaForms 0x40 0x34 0x12 := by
  simp [ldaForms]

theorem witness_LdxLoadsX :
    (⟨[0xB6, 0xF0], .ldxZeroPageY 0xF0, .memory (.zeroPageY 0xF0)⟩ : DataForm) ∈ ldxForms 0xF0 0x34 0x12 := by
  simp [ldxForms]

theorem witness_AndMasksTheAccumulator :
    (⟨[0x29, 0x0F], .andImmediate 0x0F, .immediate 0x0F⟩ : DataForm) ∈ andForms 0x0F 0x34 0x12 := by
  simp [andForms]

theorem witness_AdcAddsWithoutCarryIn :
    (⟨[0x61, 0x20], .adcIndirectX 0x20, .memory (.indirectX 0x20)⟩ : DataForm) ∈ adcForms 0x20 0x34 0x12 := by
  simp [adcForms]

theorem witness_StaStoresTheAccumulator :
    (⟨[0x91, 0x20], .staIndirectY 0x20, .indirectY 0x20⟩ : StoreForm) ∈ staForms 0x20 0x34 0x12 := by
  simp [staForms]

theorem witness_JsrPushesReturnAddressAndJumps : JsrMissesItsOperand State.reset := reset_jsr_misses

theorem witness_JsrRefusedOnItsOwnOperand : ¬ JsrMissesItsOperand overlapping := overlapping_jsr_hits

/-- A wrapping stack pointer: the pushes go to 0x0000 and 0x00FF. -/
theorem witness_JsrThenRtsComesBack : JsrMissesItsOperand { State.reset with sp := 0x00 } := (misses_iff _).mpr (by decide)

theorem witness_OnlyTheTableWritesEachRegister_jsr : ∃ t, exec (.jsr 0x0700) State.reset = .next t := ⟨_, rfl⟩

theorem witness_OnlyTheTableWritesEachRegister_sta : ∃ t, exec (.staZeroPage 0x10) State.reset = .next t := ⟨_, rfl⟩

theorem witness_InterruptDecimalBreakAreInert :
    Flag.i ∈ [Flag.i, Flag.d, Flag.b] ∧ Flag.d ∈ [Flag.i, Flag.d, Flag.b] ∧ Flag.b ∈ [Flag.i, Flag.d, Flag.b] := by
  decide

/-- Both outcomes of the comparison occur: two next states, and two refusals alike. -/
theorem witness_NoStepReadsAFlag :
    (∃ t u, step (loaded [0x69, 0x01]) = .next t ∧ step { loaded [0x69, 0x01] with flags := Flags.cleared } = .next u) ∧
      step { overlapping with flags := Flags.cleared } = .refused .jsrStackOverlapsOperand :=
  ⟨⟨_, _, rfl, rfl⟩, rfl⟩

/-- Meets the hypothesis of every statement about a port request on an unfaulted core: ReadBytePortReads,
ReadWordPortIsLittleEndian, BytePushAndPopPorts, WordPushAndPopPorts, PushThenPopGivesBack, ResetReinitialises (its first clause),
TwoResetsDecrementTwice. -/
theorem witness_unfaulted : State.reset.fault = none := rfl

/-- Meets ResetReinitialises's second clause. -/
theorem witness_ResetReinitialises_faulted : faulted.fault ≠ none := by decide

/-- SP = 2 is the least stack pointer at which neither push wraps; at 1 the second push does. -/
theorem witness_PushedWordIsLittleEndianInMemory : 2 ≤ (0x02 : Byte).toNat ∧ ¬ 2 ≤ (0x01 : Byte).toNat := by decide

theorem witness_StackCellAddress :
    (State.new ⟨.cells65535, .zeroPage⟩ []).params.stackBase = .zeroPage ∧
      (State.new ⟨.cells65535, .pageOne⟩ []).params.stackBase = .pageOne := ⟨rfl, rfl⟩

theorem witness_PhysReducesModuloMemSize :
    (start []).params.memSize = .cells65535 ∧ (startFull []).params.memSize = .cells65536 := ⟨rfl, rfl⟩

/-- The longest image that fits 65535 cells, and one byte more (MS8, MS9). -/
theorem witness_LoadPlacesTheBytes :
    (start []).fault = none ∧ (List.replicate 63999 (0x00 : Byte)).length ≤ (start []).params.memSize.cells - 0x0600 ∧
      (List.replicate 64000 (0x00 : Byte)).length > (start []).params.memSize.cells - 0x0600 := by
  rw [List.length_replicate, List.length_replicate]
  decide

theorem witness_NextFetchSeesTheStore :
    (⟨[0x8D, 0x05, 0x06], .staAbsolute 0x0605, .absolute 0x0605⟩ : StoreForm) ∈ staForms 0x00 0x05 0x06 ∧
      ∃ t, exec (.staAbsolute 0x0605) (start []) = .next t :=
  ⟨by simp only [staForms, show joinBytes 0x06 0x05 = 0x0605 from by decide]; simp, _, rfl⟩

theorem witness_CanonicalMemoriesAreDetermined : Memory.wf [(0x0000, 0x01), (0xFFFE, 0x02)] = true := by decide

theorem reset_inv : State.reset.Inv := ⟨rfl, rfl, nofun⟩

theorem loaded_inv : (loaded [0xA9, 0x05]).Inv := ⟨by decide, by decide, nofun⟩

theorem faulted_inv : faulted.Inv :=
  ⟨by decide, by decide, fun _ h => by cases h; decide⟩

theorem witness_InvariantHoldsAtReset : Memory.wf [(0x0010, 0x05)] = true ∧ Memory.within 65535 [(0x0010, 0x05)] = true := by decide

theorem witness_StepKeepsTheInvariant : (loaded [0xA9, 0x05]).Inv ∧ ∃ t, step (loaded [0xA9, 0x05]) = .next t :=
  ⟨loaded_inv, _, rfl⟩

theorem witness_PortsKeepTheInvariant : (loaded [0xA9, 0x05]).Inv ∧ ∃ t, port (.pushWord 0x1234) (loaded [0xA9, 0x05]) = .next (t, .none) :=
  ⟨loaded_inv, _, rfl⟩

/-- P1 as an end of the first kind, after one TICK. -/
theorem witness_EndsAfter : ∃ t, EndsAfter 1 (loaded [0xA9, 0x05]) t ∧ t.a = 0x05 ∧ t.pc = 0x0602 :=
  ⟨_, rfl, by decide, by decide⟩

/-- P1 as an end of the second kind, at the stop address 0x0602. -/
theorem witness_EndsAt : ∃ t, EndsAt 0x0602 (loaded [0xA9, 0x05]) t := by
  refine ⟨_, 1, rfl, rfl, fun m hm u hu => ?_⟩
  obtain rfl : m = 0 := by omega
  cases hu
  decide

/-- Two good runs that follow each other. -/
theorem witness_GoodEndsAreUniqueAndUnfaulted :
    ∃ t u, EndsAfter 1 (loaded [0xEA, 0x18]) t ∧ EndsAfter 1 t u :=
  ⟨_, _, rfl, rfl⟩

end Sys2Proof.Tests
end

section
/-! PROOFS. 10_state.md R29 to R31: I, D and B are inert. The operand fetch and the instruction fetch read no flag; the flag updates of
the instruction set write C, Z, V and N alone, so they commute with the setter of I, D or B; hence so does every instruction, and a step. -/

namespace Sys2Proof.Machine

open Sys2Proof.Forms

/-! ### Setters commute -/

namespace Flags

variable (fs : Flags) {f : Flag} (x : Bool)

theorem set_comm {g : Flag} (h : g ≠ f) (y : Bool) : (fs.set f x).set g y = (fs.set g y).set f x := by
  refine ext_get fun k => ?_
  by_cases hg : k = g
  · subst hg
    rw [get_set_same, get_set_ne _ h, get_set_same]
  · by_cases hf : k = f
    · subst hf
      rw [get_set_ne _ hg, get_set_same, get_set_same]
    · rw [get_set_ne _ hg, get_set_ne _ hf, get_set_ne _ hf, get_set_ne _ hg]

theorem setZN_set (hz : .z ≠ f) (hn : .n ≠ f) (v : Byte) : (fs.set f x).setZN v = (fs.setZN v).set f x := by
  rw [setZN, set_comm _ _ hz, set_comm _ _ hn, ← setZN]

theorem setAdc_set (hc : .c ≠ f) (hv : .v ≠ f) (hz : .z ≠ f) (hn : .n ≠ f) (a arg : Byte) :
    (fs.set f x).setAdc a arg = (fs.setAdc a arg).set f x := by
  rw [setAdc, set_comm _ _ hc, set_comm _ _ hv, setZN_set _ _ hz hn, ← setAdc]

end Flags

/-! ### What reads no flag -/

namespace State

variable (s : State) (fs : Flags)

theorem ea_flags (m : MemOperand) : State.ea { s with flags := fs } m = s.ea m := by
  cases m <;> rfl

theorem fetchArgument_flags (d : DataOperand) : State.fetchArgument { s with flags := fs } d = s.fetchArgument d := by
  cases d with
  | immediate => rfl
  | memory m => exact congrArg s.readByte (ea_flags s fs m)

theorem fetchBytes_flags : State.fetchBytes { s with flags := fs } = s.fetchBytes := rfl

end State

/-! ### Every instruction commutes with the setter of I, D or B -/

section Inert

variable {f : Flag} (x : Bool) (s : State)

/-- STA writes no flag, so it commutes with every setter. -/
theorem storeA_withFlag (m : MemOperand) : storeA m (withFlag f x s) = mapNext (withFlag f x) (storeA m s) := by
  simp only [storeA, withFlag, State.ea_flags]
  rfl

/-- JSR's refusal looks at SP, PC and the parameters, so it commutes with every setter in both outcomes. -/
theorem execJsr_withFlag (w : Word) : execJsr w (withFlag f x s) = mapNext (withFlag f x) (execJsr w s) := by
  have hov : jsrOverlaps (withFlag f x s) = jsrOverlaps s := rfl
  unfold execJsr
  rw [hov]
  split <;> rfl

variable (hf : f ∈ [Flag.i, Flag.d, Flag.b])

include hf

/-- None of the four flags that instructions write is I, D or B. -/
theorem written_ne_inert : .c ≠ f ∧ .z ≠ f ∧ .v ≠ f ∧ .n ≠ f := by
  revert hf
  cases f <;> decide

theorem setZN_set_inert (fs : Flags) (v : Byte) : (fs.set f x).setZN v = (fs.setZN v).set f x := by
  obtain ⟨-, hz, -, hn⟩ := written_ne_inert hf
  exact fs.setZN_set x hz hn v

theorem loadA_withFlag (d : DataOperand) : loadA d (withFlag f x s) = mapNext (withFlag f x) (loadA d s) := by
  simp only [loadA, withFlag, State.fetchArgument_flags, setZN_set_inert _ hf]
  rfl

theorem loadX_withFlag (d : DataOperand) : loadX d (withFlag f x s) = mapNext (withFlag f x) (loadX d s) := by
  simp only [loadX, withFlag, State.fetchArgument_flags, setZN_set_inert _ hf]
  rfl

theorem andA_withFlag (d : DataOperand) : andA d (withFlag f x s) = mapNext (withFlag f x) (andA d s) := by
  simp only [andA, withFlag, State.fetchArgument_flags, setZN_set_inert _ hf]
  rfl

theorem addA_withFlag (d : DataOperand) : addA d (withFlag f x s) = mapNext (withFlag f x) (addA d s) := by
  obtain ⟨hc, hz, hv, hn⟩ := written_ne_inert hf
  simp only [addA, withFlag, State.fetchArgument_flags, Flags.setAdc_set _ _ hc hv hz hn]
  rfl

theorem execTay_withFlag : execTay (withFlag f x s) = mapNext (withFlag f x) (execTay s) := by
  simp only [execTay, withFlag, setZN_set_inert _ hf]
  rfl

theorem execClc_withFlag : execClc (withFlag f x s) = mapNext (withFlag f x) (execClc s) := by
  obtain ⟨hc, -⟩ := written_ne_inert hf
  simp only [execClc, withFlag, Flags.set_comm _ _ hc]
  rfl

theorem execSec_withFlag : execSec (withFlag f x s) = mapNext (withFlag f x) (execSec s) := by
  obtain ⟨hc, -⟩ := written_ne_inert hf
  simp only [execSec, withFlag, Flags.set_comm _ _ hc]
  rfl

theorem exec_withFlag (i : Instr) : exec i (withFlag f x s) = mapNext (withFlag f x) (exec i s) := by
  cases i with
  | ldaImmediate | ldaZeroPage | ldaZeroPageX | ldaAbsolute | ldaAbsoluteX | ldaAbsoluteY | ldaIndirectX | ldaIndirectY =>
    exact loadA_withFlag x s hf _
  | ldxImmediate | ldxZeroPage | ldxZeroPageY | ldxAbsolute | ldxAbsoluteY => exact loadX_withFlag x s hf _
  | staZeroPage | staZeroPageX | staAbsolute | staAbsoluteX | staAbsoluteY | staIndirectX | staIndirectY =>
    exact storeA_withFlag x s _
  | tay => exact execTay_withFlag x s hf
  | andImmediate | andZeroPage | andZeroPageX | andAbsolute | andAbsoluteX | andAbsoluteY | andIndirectX | andIndirectY =>
    exact andA_withFlag x s hf _
  | adcImmediate | adcZeroPage | adcZeroPageX | adcAbsolute | adcAbsoluteX | adcAbsoluteY | adcIndirectX | adcIndirectY =>
    exact addA_withFlag x s hf _
  | jsr w => exact execJsr_withFlag x s w
  | clc => exact execClc_withFlag x s hf
  | sec => exact execSec_withFlag x s hf
  | jmpAbsolute | jmpIndirect | rts | nop | brk => rfl

theorem step_withFlag : step (withFlag f x s) = mapNext (withFlag f x) (step s) := by
  have hfault : (withFlag f x s).fault = s.fault := rfl
  have hbytes : (withFlag f x s).fetchBytes = s.fetchBytes := s.fetchBytes_flags _
  unfold step
  rw [hfault, hbytes]
  cases s.fault with
  | some => rfl
  | none =>
    cases decode s.fetchBytes with
    | ok i => exact exec_withFlag x s hf i
    | rejected => rfl

end Inert

/-- Settles O28: the fetch reads no flag and every instruction commutes with the setter, so a step does (`step_withFlag`); the values at
construction are those of `Flags.powerOn`. -/
theorem interruptDecimalBreakAreInert : Obligations.InterruptDecimalBreakAreInert :=
  ⟨fun _ hf x s => step_withFlag x s hf, fun _ _ => ⟨rfl, rfl, rfl⟩⟩

end Sys2Proof.Machine
end

section
/-! PROOFS. 20_memory.md R51, R52, R62 to R65: what the READ_BYTE port, the byte write and the four stack ports answer and leave unchanged.
On an unfaulted core a port answers what its memory or stack operation gives (`port_readByte` and its neighbours); the stack pointer then
moves by 1 or 2 modulo 0x100, and the cells are those of the rules for a read after a write. -/

namespace Sys2Proof.Machine

/-! ### The ports of an unfaulted core -/

section Ports

variable {s : State} (h : s.fault = none)

include h

theorem port_readByte (a : Word) : port (.readByte a) s = .next (s, .byte (s.readByte a)) := by
  simp only [port, h, portReadByte]

theorem port_pushByte (v : Byte) : port (.pushByte v) s = .next (s.pushByte v, .none) := by
  simp only [port, h, portPushByte]

theorem port_pushWord (w : Word) : port (.pushWord w) s = .next (s.pushWord w, .none) := by
  simp only [port, h, portPushWord]

theorem port_popByte : port .popByte s = .next (s.popByteState, .byte s.popByteValue) := by
  simp only [port, h, portPopByte]

theorem port_popWord : port .popWord s = .next (s.popWordState, .word s.popWordValue) := by
  simp only [port, h, portPopWord]

end Ports

/-! ### The stack pointer after each stack operation -/

namespace State

variable (s : State)

theorem pushByte_sp_toNat (v : Byte) : (s.pushByte v).sp.toNat = (s.sp.toNat + 0xFF) % 0x100 := by
  rw [pushByte_sp, BitVec.toNat_sub, Nat.add_comm]
  rfl

theorem pushWord_sp_toNat (w : Word) : (s.pushWord w).sp.toNat = (s.sp.toNat + 0xFE) % 0x100 := by
  rw [pushWord, pushByte_sp_toNat, pushByte_sp_toNat]
  omega

theorem popByteState_sp_toNat : s.popByteState.sp.toNat = (s.sp.toNat + 1) % 0x100 :=
  BitVec.toNat_add s.sp 1

theorem popWordState_sp_toNat : s.popWordState.sp.toNat = (s.sp.toNat + 2) % 0x100 := by
  rw [popWordState, popByteState_sp_toNat, popByteState_sp_toNat]
  omega

/-! ### Cells -/

/-- R52 in the direction the obligations ask it: is the cell looked at the one written? -/
theorem read_writeByte (a : Word) (v : Byte) (k : Nat) :
    (s.writeByte a v).mem.read k = if k = s.phys a then v else s.mem.read k := by
  rw [writeByte_mem, Memory.read_write]
  exact if_congr eq_comm rfl rfl

/-- The two cells of a word push are different ones, wrapping or not. -/
theorem phys_stackAddr_sub_one_ne (q : Byte) : s.phys (s.stackAddr (q - 1)) ≠ s.phys (s.stackAddr q) := by
  rw [Ne, phys_stackAddr_inj]
  intro h
  bv_omega

theorem readByte_pushWord_high (w : Word) : (s.pushWord w).readByte (s.stackAddr s.sp) = highByte w := by
  rw [readByte_pushWord, if_neg (s.phys_stackAddr_sub_one_ne s.sp), if_pos rfl]

theorem readByte_pushWord_low (w : Word) : (s.pushWord w).readByte (s.stackAddr (s.sp - 1)) = lowByte w := by
  rw [readByte_pushWord, if_pos rfl]

theorem read_pushWord_ne (w : Word) {k : Nat} (hhi : k ≠ s.phys (s.stackAddr s.sp))
    (hlo : k ≠ s.phys (s.stackAddr (s.sp - 1))) : (s.pushWord w).mem.read k = s.mem.read k := by
  calc (s.pushWord w).mem.read k
      = (s.pushByte (highByte w)).mem.read k := Memory.read_write_ne _ _ _ _ hlo.symm
    _ = s.mem.read k := Memory.read_write_ne _ _ _ _ hhi.symm

/-- R65: the first byte popped, at `stackaddr(SP + 1)`, is the low byte, the second the high byte. -/
theorem popWordValue_eq :
    s.popWordValue = joinBytes (s.readByte (s.stackAddr (s.sp + 2))) (s.readByte (s.stackAddr (s.sp + 1))) := by
  have hsp : s.sp + 1 + 1 = s.sp + 2 := BitVec.add_assoc s.sp 1 1
  rw [popWordValue, popByteValue, popByteValue, popByteState_readByte, popByteState_stackAddr, popByteState_sp, hsp]

end State

/-! ### The obligations -/

/-- Settles O36: the port answers `read_byte` (`port_readByte`), which is the byte of the cell by definition. -/
theorem readBytePortReads : Obligations.ReadBytePortReads :=
  fun _ a h => port_readByte h a

/-- Settles O38: the cells by the rule for a read after a write; the write replaces the memory field alone. -/
theorem byteWriteSetsOneCell : Obligations.ByteWriteSetsOneCell :=
  fun s a v => ⟨s.read_writeByte a v, rfl⟩

/-- Settles O39: a push is a byte write at the stack pointer followed by the decrement, and a pop reads at the stack pointer it leaves. -/
theorem bytePushAndPopPorts : Obligations.BytePushAndPopPorts :=
  fun s v h =>
    ⟨⟨s.pushByte v, port_pushByte h v, rfl, s.pushByte_sp_toNat v, s.read_writeByte (s.stackAddr s.sp) v⟩,
      ⟨s.popByteState, port_popByte h, rfl, s.popByteState_sp_toNat⟩⟩

/-- Settles O40: the two cells of a word push are different (`State.phys_stackAddr_sub_one_ne`), so the second byte written leaves the first
one in place. -/
theorem wordPushAndPopPorts : Obligations.WordPushAndPopPorts := by
  intro s w h
  refine ⟨⟨s.pushWord w, port_pushWord h w, rfl, s.pushWord_sp_toNat w, s.readByte_pushWord_high w, s.readByte_pushWord_low w,
    fun k hhi hlo => s.read_pushWord_ne w hhi hlo⟩, ⟨s.popWordState, ?_, rfl, s.popWordState_sp_toNat⟩⟩
  rw [port_popWord h, s.popWordValue_eq]

end Sys2Proof.Machine
end

section
/-! PROOFS. 30_encoding.md R80: an accepting decoder looked mnemonic and mode up under the opcode byte alone, and the operand it then
took is as long as the mode says. -/

namespace Sys2Proof

/-- With the opcode, the operand a mode takes makes up the mode's length. -/
theorem takeOperand_length {m : Mode} {bytes rest : List Byte} {o : OperandBytes} (h : takeOperand m bytes = some (o, rest)) :
    bytes.length + 1 = m.len + rest.length := by
  rcases takeOperand_cases h with ⟨hm, -, rfl⟩ | ⟨hm, b, -, rfl⟩ | ⟨hm, lo, hi, -, rfl⟩ <;>
    simp only [hm, List.length_cons] <;> omega

theorem decode_cons_ok {op : Byte} {tail rest : List Byte} {i : Instr} (h : decode (op :: tail) = .ok i rest) :
    lookup op = some ⟨i.mnemonic, i.mode⟩ ∧ tail.length + 1 = i.mode.len + rest.length := by
  obtain ⟨_, _, hb, hl, ho⟩ := decode_ok h
  cases hb
  exact ⟨hl, takeOperand_length ho⟩

/-- Settles O4: both instructions have the one entry that `lookup` gives for the opcode (`decode_cons_ok`), and every mode's length is 1, 2
or 3 (`Mode.len_cases`). -/
theorem opcodeAloneFixesModeAndLength : Obligations.OpcodeAloneFixesModeAndLength := by
  intro op tail tail' rest rest' i i' h h'
  obtain ⟨hl, hlen⟩ := decode_cons_ok h
  obtain ⟨hl', -⟩ := decode_cons_ok h'
  have hentry : Entry.mk i.mnemonic i.mode = ⟨i'.mnemonic, i'.mode⟩ := Option.some.inj (hl.symm.trans hl')
  obtain ⟨hmnemonic, hmode⟩ := Entry.mk.inj hentry
  exact ⟨hmnemonic, hmode, hlen, i.mode.len_cases⟩

end Sys2Proof
end

section
/-! PROOFS. 40_execute_and_addressing.md R102, R107 to R112, R117: the table lookup fails on the unmapped opcodes, which ties the step
lemma `step_unmapped` to the mapped opcode bytes; the two index additions as numbers; bit 7 of the value `setZN` takes as a bound. -/

namespace Sys2Proof.Machine

open Sys2Proof.Forms

/-! ### The unmapped opcodes -/

theorem tableOpcodes_perm_mappedOpcodes : (opcodeTable.map OpcodeRow.opcode).Perm mappedOpcodes := by
  decide

theorem lookup_eq_none_iff {op : Byte} : lookup op = none ↔ op ∉ mappedOpcodes := by
  rw [← tableOpcodes_perm_mappedOpcodes.mem_iff]
  simp [lookup]

/-- Settles O7: on an unmapped opcode a step takes the decode failure (`step_unmapped`), which replaces FAULT alone. -/
theorem unmappedOpcodeSetsFaultOnly : Obligations.UnmappedOpcodeSetsFaultOnly := by
  intro s hfault hop
  have hstep : step s = .next (s.takeDecodeFailure s.fetchOpcode) := step_unmapped hfault (lookup_eq_none_iff.mpr hop)
  exact ⟨_, hstep, rfl, rfl, rfl, rfl, rfl, rfl, rfl, rfl, rfl, rfl⟩

/-! ### setZN -/

namespace Flags

variable (fs : Flags) (v : Byte)

theorem setZN_z_iff : (fs.setZN v).z = true ↔ v.toNat = 0 := by
  rw [setZN_z, beq_iff_eq, ← BitVec.toNat_inj]
  rfl

theorem setZN_n_iff : (fs.setZN v).n = true ↔ 0x80 ≤ v.toNat := by
  have hmsb : v.getLsbD 7 = decide (0x80 ≤ v.toNat) := BitVec.msb_eq_decide v
  rw [setZN_n, hmsb, decide_eq_true_iff]

end Flags

/-- Settles O31: Z and N as numbers, and the frame by the getter rule of `setZN` (`Flags.setZN_get`). -/
theorem setZNWritesZAndN : Obligations.SetZNWritesZAndN := by
  intro fs v
  refine ⟨fs.setZN_z_iff v, fs.setZN_n_iff v, fun f hf => ?_⟩
  obtain ⟨hz, hn⟩ : f ≠ .z ∧ f ≠ .n := by simpa using hf
  exact fs.setZN_get hz hn v

/-! ### Index additions -/

@[simp] theorem zeroPageIndexed_toNat (zp8 index : Byte) :
    (zeroPageIndexed zp8 index).toNat = (zp8.toNat + index.toNat) % 0x100 := by
  rw [zeroPageIndexed, zext16_toNat, BitVec.toNat_add]

@[simp] theorem wordIndexed_toNat (w : Word) (index : Byte) :
    (wordIndexed w index).toNat = (w.toNat + index.toNat) % 0x10000 := by
  rw [wordIndexed, BitVec.toNat_add, zext16_toNat]

/-- Settles O32: each mode's address is the operand or an index addition on it; the lengths are those of `Mode.len`. -/
theorem directModesResolve : Obligations.DirectModesResolve :=
  fun s zp8 w =>
    ⟨zext16_toNat zp8, rfl, zeroPageIndexed_toNat zp8 s.x, rfl, zeroPageIndexed_toNat zp8 s.y, rfl, rfl, rfl,
      wordIndexed_toNat w s.x, rfl, wordIndexed_toNat w s.y, rfl⟩

end Sys2Proof.Machine
end

section
/-! PROOFS. 41_load_store_transfer.md R131 to R133: the forms of LDX and STA are gone through once, each to its decoding, its
shared meaning and its length; the effect and the frame are then proved once for the meaning, whatever the operand. -/

namespace Sys2Proof.Machine

open Sys2Proof.Forms

/-! ### Effects and frames -/

/-- A state whose flags are the old ones after `setZN` keeps every flag but Z and N. -/
theorem flagsKeptBut_of_setZN {s t : State} {v : Byte} (h : t.flags = s.flags.setZN v) : FlagsKeptBut [.z, .n] s t := by
  intro f hf
  obtain ⟨hz, hn⟩ : f ≠ .z ∧ f ≠ .n := by simpa using hf
  rw [h, s.flags.setZN_get hz hn]

namespace State

variable (s : State)

theorem readByte_writeByte_same (a : Word) (v : Byte) : (s.writeByte a v).readByte a = v := by
  rw [readByte_writeByte, if_pos rfl]

theorem readByte_writeByte_ne {a b : Word} (h : s.phys b ≠ s.phys a) (v : Byte) :
    (s.writeByte a v).readByte b = s.readByte b := by
  rw [readByte_writeByte, if_neg h.symm]

end State

/-! ### Forms -/

section Forms

variable {b lo hi : Byte}

/-- Each form of LDX decodes from its bytes, means `loadX` of its operand, and is as long as the operand's mode says. -/
theorem decode_exec_of_mem_ldxForms {f : DataForm} (hf : f ∈ ldxForms b lo hi) (rest : List Byte) :
    decode (f.bytes ++ rest) = .ok f.instr rest ∧ exec f.instr = loadX f.operand ∧ f.operand.mode.len = f.bytes.length := by
  simp only [ldxForms, List.mem_cons, List.not_mem_nil, or_false] at hf
  rcases hf with rfl | rfl | rfl | rfl | rfl <;> exact ⟨decode_of rfl rfl, rfl, rfl⟩

/-- Each form of STA decodes from its bytes, means `storeA` of its operand, and is as long as the operand's mode says. -/
theorem decode_exec_of_mem_staForms {f : StoreForm} (hf : f ∈ staForms b lo hi) (rest : List Byte) :
    decode (f.bytes ++ rest) = .ok f.instr rest ∧ exec f.instr = storeA f.operand ∧ f.operand.mode.len = f.bytes.length := by
  simp only [staForms, List.mem_cons, List.not_mem_nil, or_false] at hf
  rcases hf with rfl | rfl | rfl | rfl | rfl | rfl | rfl <;> exact ⟨decode_of rfl rfl, rfl, rfl⟩

end Forms

/-! ### The obligations -/

/-- Settles O13: every form means `loadX` (`decode_exec_of_mem_ldxForms`), which replaces X, PC and, by `setZN`, two flags. -/
theorem ldxLoadsX : Obligations.LdxLoadsX := by
  intro b lo hi rest s f hf
  obtain ⟨hdecode, hexec, hlen⟩ := decode_exec_of_mem_ldxForms hf rest
  rw [hexec, ← hlen]
  exact ⟨hdecode, _, rfl, rfl, rfl, rfl, rfl, flagsKeptBut_of_setZN rfl, rfl, rfl, rfl, fun _ => rfl, rfl, rfl, rfl⟩

/-- Settles O14: every form means `storeA` (`decode_exec_of_mem_staForms`), one byte write followed by the PC advance, so memory is as the
rules for a read after a byte write say. -/
theorem staStoresTheAccumulator : Obligations.StaStoresTheAccumulator := by
  intro b lo hi rest s f hf
  obtain ⟨hdecode, hexec, hlen⟩ := decode_exec_of_mem_staForms hf rest
  rw [hexec, ← hlen]
  exact ⟨hdecode, _, rfl, s.readByte_writeByte_same _ _, fun _ ha => s.readByte_writeByte_ne ha _, rfl, rfl, rfl, rfl, rfl, rfl,
    rfl, rfl, rfl⟩

/-- Settles O15: TAY replaces Y, PC and, by `setZN`, two flags. -/
theorem tayCopiesAToY : Obligations.TayCopiesAToY :=
  fun _ _ =>
    ⟨decode_of rfl rfl, _, rfl, rfl, rfl, rfl, rfl, flagsKeptBut_of_setZN rfl, rfl, rfl, rfl, fun _ => rfl, rfl, rfl, rfl⟩

end Sys2Proof.Machine
end

section
/-! PROOFS. 43_control_transfer.md R152: RTS is a word pop followed by a jump. What was popped is `State.popWordValue_eq`; the pop moves
the stack pointer alone and the jump the program counter alone, so the rest of the state is as before. -/

namespace Sys2Proof.Machine

/-- The two increments of a word pop, as the one addition R152 gives. -/
theorem State.popWordState_sp_eq_add_two (s : State) : s.popWordState.sp = s.sp + 2 :=
  BitVec.add_assoc s.sp 1 1

/-- Settles O21: the PC by the value of a word pop (`State.popWordValue_eq`), SP by its two increments
(`State.popWordState_sp_eq_add_two`). -/
theorem rtsPopsAndGoesPastTheWord : Obligations.RtsPopsAndGoesPastTheWord := by
  intro rest s
  have hpc : (s.popWordState.jumpTo (s.popWordValue + 1)).pc =
      joinBytes (s.readByte (s.stackAddr (s.sp + 2))) (s.readByte (s.stackAddr (s.sp + 1))) + 1 :=
    congrArg (· + 1) s.popWordValue_eq
  have hexec : exec .rts s = .next (s.popWordState.jumpTo (s.popWordValue + 1)) := rfl
  exact ⟨decode_of rfl rfl, _, hexec, hpc, s.popWordState_sp_eq_add_two, rfl, rfl, rfl, rfl, fun _ => rfl, rfl, rfl, rfl⟩

end Sys2Proof.Machine
end

section
/-! PROOFS. 44_flag_and_system.md R160 to R162: CLC and SEC mean one thing, a write of the carry followed by a PC advance of 1, so effect
and frame are proved once for the flag written and the value; NOP is the advance alone. -/

namespace Sys2Proof.Machine

open Sys2Proof.Forms

/-- A state whose flags are the old ones after a write of `f` keeps every other flag. -/
theorem flagsKeptBut_of_set {s t : State} {f : Flag} {x : Bool} (h : t.flags = s.flags.set f x) : FlagsKeptBut [f] s t := by
  intro g hg
  have hne : g ≠ f := by simpa using hg
  rw [h, s.flags.get_set_ne hne]

/-- Effect and frame of a flag write followed by a PC advance. -/
theorem withFlag_advance_effect_frame (f : Flag) (x : Bool) (s : State) (n : Nat) {t : State}
    (ht : t = (withFlag f x s).advance n) :
    t.flags.get f = x ∧ t.pc = s.pc + wrap16 n ∧ FlagsKeptBut [f] s t ∧
      t.a = s.a ∧ t.x = s.x ∧ t.y = s.y ∧ t.sp = s.sp ∧ SameMemory s t ∧ LatchAndModelFieldsKept s t := by
  subst ht
  exact ⟨s.flags.get_set_same f x, rfl, flagsKeptBut_of_set rfl, rfl, rfl, rfl, rfl, fun _ => rfl, rfl, rfl, rfl⟩

theorem exec_clc (s : State) : exec .clc s = .next ((withFlag .c false s).advance 1) := rfl

theorem exec_sec (s : State) : exec .sec s = .next ((withFlag .c true s).advance 1) := rfl

theorem exec_nop (s : State) : exec .nop s = .next (s.advance 1) := rfl

/-- Settles O23: CLC is a write of false to C and an advance by 1 (`exec_clc`), whose frame is `withFlag_advance_effect_frame`. -/
theorem clcClearsCarryOnly : Obligations.ClcClearsCarryOnly :=
  fun _ s => ⟨decode_of rfl rfl, _, exec_clc s, withFlag_advance_effect_frame .c false s 1 rfl⟩

/-- Settles O24: SEC is a write of true to C and an advance by 1 (`exec_sec`), whose frame is `withFlag_advance_effect_frame`. -/
theorem secSetsCarryOnly : Obligations.SecSetsCarryOnly :=
  fun _ s => ⟨decode_of rfl rfl, _, exec_sec s, withFlag_advance_effect_frame .c true s 1 rfl⟩

/-- Settles O25: NOP is the advance by 1 (`exec_nop`), which replaces PC alone. -/
theorem nopMovesPcOnly : Obligations.NopMovesPcOnly :=
  fun _ s => ⟨decode_of rfl rfl, exec_nop s⟩

end Sys2Proof.Machine
end

section
/-! PROOFS. 60_exceptions.md R200, R201: no exception but the decode failure. What a request can answer is said once: on a faulted core
`port_faulted`, on an unfaulted one `port_unfaulted`; TICK alone passes an answer of `step` on, whose refusals are those of
`step_refused`. -/

namespace Sys2Proof.Machine

open Sys2Proof.Forms

/-! ### The refusals of a step -/

theorem opcode_eq_of_lookup_jsr {op : Byte} {e : Entry} (h : lookup op = some e) (hjsr : e.mnemonic = .jsr) : op = 0x20 := by
  have hrows : ∀ r ∈ opcodeTable, r.entry.mnemonic = .jsr → r.opcode = 0x20 := by decide
  exact hrows ⟨op, e⟩ (lookup_some h) hjsr

/-- R151: JSR's own check finds an overlap where the statements' condition fails. -/
theorem jsrOverlaps_eq_true_iff {s : State} : jsrOverlaps s = true ↔ ¬ JsrMissesItsOperand s := by
  rw [← Bool.not_eq_false, not_iff_not]
  simp [jsrOverlaps, JsrMissesItsOperand]

theorem step_refused {s : State} {q : Refusal} (h : step s = .refused q) :
    (q = .coreFaulted ∧ s.fault ≠ none) ∨
      (q = .jsrStackOverlapsOperand ∧ s.fetchOpcode = 0x20 ∧ ¬ JsrMissesItsOperand s) := by
  by_cases hfault : s.fault = none
  · right
    cases hlookup : lookup s.fetchOpcode with
    | none =>
      rw [step_unmapped hfault hlookup] at h
      contradiction
    | some e =>
      obtain ⟨i, -, hmnemonic, -, hstep⟩ := step_mapped hfault hlookup
      obtain ⟨hq, ⟨w, rfl⟩, hoverlap⟩ := exec_refused (hstep.symm.trans h)
      exact ⟨hq, opcode_eq_of_lookup_jsr hlookup hmnemonic.symm, jsrOverlaps_eq_true_iff.mp hoverlap⟩
  · left
    rw [step_faulted hfault] at h
    cases h
    exact ⟨rfl, hfault⟩

/-- The only fault a step sets is the decode failure: an executed instruction keeps FAULT, which was none. -/
theorem step_next_faulted {s t : State} (h : step s = .next t) (ht : t.fault ≠ none) :
    s.fetchOpcode ∉ mappedOpcodes ∧ t.fault = some (.decodeFailure s.fetchOpcode) := by
  obtain ⟨hfault, ⟨_, _, -, -, -, -, -, hexec⟩ | ⟨hlookup, rfl⟩⟩ := step_next h
  · obtain ⟨hkept, -, -⟩ := hexec.kept
    exact absurd (hkept.trans hfault) ht
  · exact ⟨lookup_eq_none_iff.mp hlookup, rfl⟩

/-! ### What a port request can answer -/

theorem portTick_no_fault (s : State) (q : Fault) : portTick s ≠ .fault q := by
  unfold portTick
  cases hstep : step s with
  | next | refused => exact nofun
  | fault q' => exact absurd hstep (step_no_fault s q')

theorem portTick_refused {s : State} {q : Refusal} (h : portTick s = .refused q) : step s = .refused q := by
  unfold portTick at h
  cases hstep : step s <;> rw [hstep] at h <;> cases h
  rfl

theorem portTick_next {s t : State} {v : Response} (h : portTick s = .next (t, v)) : step s = .next t ∧ v = tickResponse t := by
  unfold portTick at h
  cases hstep : step s <;> rw [hstep] at h <;> cases h
  exact ⟨rfl, rfl⟩

/-- R41: a faulted core refuses every request. -/
theorem port_faulted {s : State} (h : s.fault ≠ none) (r : Request) : port r s = .refused .coreFaulted := by
  obtain ⟨q, hq⟩ := Option.ne_none_iff_exists'.mp h
  simp only [port, hq]

section Unfaulted

variable {s : State} (h : s.fault = none)

include h

theorem port_tick : port .tick s = portTick s := by
  simp only [port, h]

theorem port_reset : port .reset s = portReset s := by
  simp only [port, h]

theorem port_load (bs : List Byte) : port (.load bs) s = portLoad bs s := by
  simp only [port, h]

theorem port_readWord (a : Word) : port (.readWord a) s = .next (s, .word (s.readWord a)) := by
  simp only [port, h, portReadWord]

/-- On an unfaulted core TICK is left to the step, a LOAD too long is refused, and every other request completes and keeps FAULT none. -/
theorem port_unfaulted (r : Request) :
    (r = .tick ∧ port r s = portTick s) ∨
      (∃ bs, r = .load bs ∧ bs.length > s.params.memSize.cells - loadOrigin.toNat ∧ port r s = .refused .loadTooLong) ∨
      (∃ t v, port r s = .next (t, v) ∧ t.fault = none) := by
  cases r with
  | tick => exact .inl ⟨rfl, port_tick h⟩
  | load bs =>
    rw [port_load h, portLoad]
    split
    · next hlong => exact .inr (.inl ⟨bs, rfl, hlong, rfl⟩)
    · exact .inr (.inr ⟨_, _, rfl, (s.writeBytes_fault bs loadOrigin).trans h⟩)
  | reset => exact .inr (.inr ⟨_, _, port_reset h, h⟩)
  | readByte a => exact .inr (.inr ⟨_, _, port_readByte h a, h⟩)
  | readWord a => exact .inr (.inr ⟨_, _, port_readWord h a, h⟩)
  | pushByte v => exact .inr (.inr ⟨_, _, port_pushByte h v, h⟩)
  | pushWord w => exact .inr (.inr ⟨_, _, port_pushWord h w, h⟩)
  | popByte => exact .inr (.inr ⟨_, _, port_popByte h, h⟩)
  | popWord => exact .inr (.inr ⟨_, _, port_popWord h, h⟩)

end Unfaulted

/-! ### What is never answered, what is refused, and when FAULT is set -/

theorem port_no_fault (r : Request) (s : State) (q : Fault) : port r s ≠ .fault q := by
  by_cases hfault : s.fault = none
  · rcases port_unfaulted hfault r with ⟨-, hport⟩ | ⟨_, -, -, hport⟩ | ⟨_, _, hport, -⟩ <;> rw [hport]
    · exact portTick_no_fault s q
    · exact nofun
    · exact nofun
  · rw [port_faulted hfault]
    exact nofun

theorem port_refused {r : Request} {s : State} {q : Refusal} (h : port r s = .refused q) :
    (q = .coreFaulted ∧ s.fault ≠ none) ∨
      (q = .loadTooLong ∧ ∃ bs, r = .load bs ∧ bs.length > s.params.memSize.cells - loadOrigin.toNat) ∨
      (q = .jsrStackOverlapsOperand ∧ r = .tick ∧ s.fetchOpcode = 0x20 ∧ ¬ JsrMissesItsOperand s) := by
  by_cases hfault : s.fault = none
  · rcases port_unfaulted hfault r with ⟨hr, hport⟩ | ⟨bs, hr, hlong, hport⟩ | ⟨_, _, hport, -⟩ <;> rw [hport] at h
    · rcases step_refused (portTick_refused h) with ⟨-, hset⟩ | ⟨hq, hjsr⟩
      · exact absurd hfault hset
      · exact .inr (.inr ⟨hq, hr, hjsr⟩)
    · cases h
      exact .inr (.inl ⟨rfl, bs, hr, hlong⟩)
    · contradiction
  · rw [port_faulted hfault] at h
    cases h
    exact .inl ⟨rfl, hfault⟩

theorem port_next_faulted {r : Request} {s t : State} {v : Response} (h : port r s = .next (t, v)) (ht : t.fault ≠ none) :
    r = .tick ∧ s.fetchOpcode ∉ mappedOpcodes ∧ t.fault = some (.decodeFailure s.fetchOpcode) := by
  by_cases hfault : s.fault = none
  · rcases port_unfaulted hfault r with ⟨hr, hport⟩ | ⟨_, -, -, hport⟩ | ⟨_, _, hport, hnone⟩ <;> rw [hport] at h
    · obtain ⟨hstep, -⟩ := portTick_next h
      exact ⟨hr, step_next_faulted hstep ht⟩
    · contradiction
    · cases h
      exact absurd hnone ht
  · rw [port_faulted hfault] at h
    contradiction

/-! ### The obligation -/

/-- Settles O10: no request answers a fault (`port_no_fault`), the refusals are classified by `port_refused`, and FAULT is newly set by a
decode failure alone (`port_next_faulted`). -/
theorem noOtherException : Obligations.NoOtherException :=
  fun r s => ⟨port_no_fault r s, fun _ => port_refused, fun _ _ => port_next_faulted⟩

end Sys2Proof.Machine
end

section
/-! PROOFS. 70_reset_and_hazards.md R220 to R223: the state NEW constructs, and what the RESET port answers. The fields of both states are
given by the laws of `State.new` and `State.resetWith`; what is added here is the flags at construction, written out, and the one state
RESET answers on an unfaulted core. -/

namespace Sys2Proof.Machine

/-! ### Construction -/

/-- R220: the two setters of `Flags.powerOn` leave exactly C and I set. -/
theorem Flags.powerOn_eq :
    Flags.powerOn = { c := true, z := false, i := true, d := false, b := false, v := false, n := false } := rfl

/-- Settles O48: the fields are those of the laws of `State.new`, and the flags those of `Flags.powerOn_eq`. -/
theorem newConstructsTheState : Obligations.NewConstructsTheState := by
  intro p mem0
  simp [Flags.powerOn_eq]

/-! ### RESET -/

/-- R221, R223: on an unfaulted core RESET answers the state of `State.resetWith` for the OPEN decrement and the next seven draws, and
moves the draw counter past them. -/
theorem port_reset_next {s : State} (h : s.fault = none) :
    port .reset s = .next ({ s.resetWith Config.resetSpDecrement (Flags.drawn Config.freeBit s.draws) with
      draws := s.draws + flagDraws }, .none) :=
  port_reset h

/-- Settles O49: an unfaulted core answers the state of `port_reset_next`, whose fields are those of the laws of `State.resetWith`, its
flags the draws in order; a faulted core refuses RESET as it refuses every request (`port_faulted`). -/
theorem resetReinitialises : Obligations.ResetReinitialises := by
  intro s
  constructor
  · intro h
    refine ⟨_, port_reset_next h, ?_⟩
    simp [h, Flags.drawn, flagDraws]
  · intro h
    exact port_faulted h .reset

end Sys2Proof.Machine
end

section
/-! PROOFS. 30_encoding.md R81 to R85: encoding and decoding are inverse. An encoding is the opcode byte, which determines the table entry
and is determined by it, followed by the operand's bytes; the bytes of an operand are exactly what its mode takes. -/

namespace Sys2Proof

open Sys2Proof.Forms

/-! ### The bytes of an operand -/

/-- The bytes of an assembled operand, in the order of R81: the low byte of a word first. -/
def OperandBytes.bytes : OperandBytes → List Byte
  | .none => []
  | .byte b => [b]
  | .word w => [lowByte w, highByte w]

theorem encode_eq_cons (i : Instr) : ∃ op, lookup op = some ⟨i.mnemonic, i.mode⟩ ∧ encode i = op :: i.operandBytes.bytes := by
  cases i <;> exact ⟨_, rfl, rfl⟩

theorem Instr.wf_eq_true (i : Instr) : i.wf = true := by
  cases i <;> rfl

theorem Instr.mode_len_eq (i : Instr) : i.mode.len = i.operandBytes.bytes.length + 1 := by
  cases i <;> rfl

/-- A mode takes the operand whose bytes stand in front, where they are as many as the mode says. -/
theorem takeOperand_bytes {m : Mode} {o : OperandBytes} (h : m.len = o.bytes.length + 1) (rest : List Byte) :
    takeOperand m (o.bytes ++ rest) = some (o, rest) := by
  cases o with
  | none | byte => simp only [takeOperand, h]; rfl
  | word w =>
    simp only [takeOperand, h, OperandBytes.bytes]
    exact congrArg (fun v => some (OperandBytes.word v, rest)) (joinBytes_high_low w)

theorem bytes_append_of_takeOperand {m : Mode} {bytes rest : List Byte} {o : OperandBytes}
    (h : takeOperand m bytes = some (o, rest)) : o.bytes ++ rest = bytes := by
  rcases takeOperand_cases h with ⟨-, rfl, rfl⟩ | ⟨-, b, rfl, rfl⟩ | ⟨-, lo, hi, rfl, rfl⟩
  · rfl
  · rfl
  · simp [OperandBytes.bytes]

/-! ### The opcode of an entry -/

theorem tableEntries_nodup : (opcodeTable.map OpcodeRow.entry).Nodup := by
  decide

/-- No two opcodes have the same entry. -/
theorem lookup_inj {op op' : Byte} {e : Entry} (h : lookup op = some e) (h' : lookup op' = some e) : op = op' :=
  congrArg OpcodeRow.opcode (List.inj_on_of_nodup_map tableEntries_nodup (lookup_some h) (lookup_some h') rfl)

/-! ### The obligations -/

/-- Settles O1: the encoding's first byte has the instruction's entry (`encode_eq_cons`), and the mode takes the operand back from its
bytes (`takeOperand_bytes`), which is all that decoding needs (`decode_of`). -/
theorem decodeOfEncodeIsTheInstruction : Obligations.DecodeOfEncodeIsTheInstruction := by
  intro i rest
  obtain ⟨op, hlookup, hencode⟩ := encode_eq_cons i
  rw [hencode, List.cons_append]
  exact decode_of hlookup (takeOperand_bytes i.mode_len_eq rest)

/-- Settles O2: an accepted sequence starts with an opcode of the instruction's entry (`decode_ok`), which is the one its encoding starts
with (`lookup_inj`), and continues with the operand's bytes (`bytes_append_of_takeOperand`). -/
theorem encodeOfDecodeIsTheBytes : Obligations.EncodeOfDecodeIsTheBytes := by
  intro bytes rest i h
  obtain ⟨op, tail, rfl, hlookup, hoperand⟩ := decode_ok h
  obtain ⟨op', hlookup', hencode⟩ := encode_eq_cons i
  rw [hencode, List.cons_append, lookup_inj hlookup' hlookup, bytes_append_of_takeOperand hoperand]

/-- Settles O3: the listed bytes are those that `lookup` maps (`Machine.lookup_eq_none_iff`), and every mode is satisfied by two bytes
(`Mode.len_cases`). -/
theorem exactlyTheTableOpcodesDecode : Obligations.ExactlyTheTableOpcodesDecode := by
  refine ⟨rfl, by decide, fun op hop tail => decode_unmapped (Machine.lookup_eq_none_iff.mpr hop) tail, fun op hop b₁ b₂ tail => ?_⟩
  have hmapped : lookup op ≠ none := fun hnone => Machine.lookup_eq_none_iff.mp hnone hop
  obtain ⟨e, he⟩ := Option.ne_none_iff_exists'.mp hmapped
  have hlen : e.mode.len ≤ (b₁ :: b₂ :: tail).length + 1 := by
    simp only [List.length_cons]
    rcases e.mode.len_cases with h | h | h <;> omega
  obtain ⟨i, rest, hdecode, -⟩ := decode_mapped he hlen
  exact ⟨i, rest, hdecode⟩

/-- Settles O5: each word's first byte has the entry of the instruction it stands for, whose mode takes the bytes after it (`decode_of`);
0xD0 has no entry (`decode_unmapped`). -/
theorem specWordsDecode : Obligations.SpecWordsDecode :=
  ⟨decode_of rfl rfl, decode_of rfl rfl, decode_of rfl rfl, decode_of rfl rfl, decode_of rfl rfl, decode_of rfl rfl, decode_of rfl rfl,
    decode_of rfl rfl, decode_of rfl rfl, decode_of rfl rfl, decode_unmapped rfl _⟩

end Sys2Proof
end

section
/-! PROOFS. 40_execute_and_addressing.md R100, R104, 60_exceptions.md R200 and 10_state.md R41: a tick runs the instruction that the bytes at
PC decode to, since the bytes it fetches are as many of them as the mode asks for; and it reports the decode failure it took, or nothing. -/

namespace Sys2Proof.Machine

open Sys2Proof.Forms

/-! ### The instruction fetched -/

theorem State.bytesAtPc_eq_take (s : State) {n : Nat} (h : n ≤ 3) : s.bytesAtPc n = (s.bytesAtPc 3).take n := by
  rw [State.bytesAtPc, State.bytesAtPc, ← List.map_take, List.take_range, Nat.min_eq_left h]

/-- What the three bytes at PC decode to is what the fetched bytes decode to. -/
theorem decode_fetchBytes_of_decode {s : State} {i : Instr} {rest : List Byte}
    (h : decode [s.readByte s.pc, s.readByte (s.pc + 1), s.readByte (s.pc + 2)] = .ok i rest) : decode s.fetchBytes = .ok i [] := by
  obtain ⟨op, tail, hbytes, hlookup, hoperand⟩ := decode_ok h
  have htail : i.operandBytes.bytes ++ rest = tail := bytes_append_of_takeOperand hoperand
  have hopcode : s.fetchOpcode = op := (List.cons.inj hbytes).1
  have hlen : i.mode.len ≤ 3 := by rcases i.mode.len_cases with h | h | h <;> omega
  have hfetch : s.fetchBytes = op :: (i.operandBytes.bytes ++ []) := by
    calc s.fetchBytes
        = s.bytesAtPc i.mode.len := by simp only [State.fetchBytes, hopcode, hlookup]
      _ = (op :: tail).take i.mode.len := by rw [s.bytesAtPc_eq_take hlen, bytesAtPc_three, hbytes]
      _ = op :: (i.operandBytes.bytes ++ []) := by rw [i.mode_len_eq, ← htail, List.take_succ_cons, List.take_left, List.append_nil]
  rw [hfetch]
  exact decode_of hlookup (takeOperand_bytes i.mode_len_eq [])

theorem step_of_decode {s : State} {i : Instr} {rest : List Byte} (hfault : s.fault = none) (h : decode s.fetchBytes = .ok i rest) :
    step s = exec i s := by
  simp only [step, hfault, h]

/-- Settles O6: the fetched bytes decode to the instruction the three bytes at PC decode to (`decode_fetchBytes_of_decode`), and a step
executes what they decode to. -/
theorem stepRunsTheDecodedInstruction : Obligations.StepRunsTheDecodedInstruction :=
  fun _ i _ hfault h => ⟨i.wf_eq_true, step_of_decode hfault (decode_fetchBytes_of_decode h)⟩

/-! ### What TICK reports -/

theorem tickResponse_of_unfaulted {t : State} (h : t.fault = none) : tickResponse t = .none := by
  simp only [tickResponse, h]

theorem portTick_of_step {s t : State} (h : step s = .next t) : portTick s = .next (t, tickResponse t) := by
  simp only [portTick, h]

/-- Settles O8: on an unmapped opcode the step takes the decode failure (`step_unmapped`), which is what TICK then reports; on a mapped one
the step leaves FAULT none (`step_next_faulted`), so there is nothing to report. -/
theorem tickReportsTheDecodeFailure : Obligations.TickReportsTheDecodeFailure := by
  intro s hfault
  rw [port_tick hfault]
  refine ⟨fun hop => ?_, fun hop t r h => ?_⟩
  · have hstep : step s = .next (s.takeDecodeFailure s.fetchOpcode) := step_unmapped hfault (lookup_eq_none_iff.mpr hop)
    exact ⟨_, portTick_of_step hstep, hstep⟩
  · obtain ⟨hstep, rfl⟩ := portTick_next h
    have hnone : t.fault = none := by
      by_contra hset
      obtain ⟨hunmapped, -⟩ := step_next_faulted hstep hset
      exact hunmapped hop
    exact ⟨tickResponse_of_unfaulted hnone, hstep⟩

/-- Settles O9: R41 for the ports (`port_faulted`) and for the step (`step_faulted`). -/
theorem faultedCoreRefusesEveryRequest : Obligations.FaultedCoreRefusesEveryRequest :=
  fun _ r h => ⟨port_faulted h r, step_faulted h⟩

end Sys2Proof.Machine
end

section
/-! PROOFS. 10_state.md R26: each flag has a getter and a setter of its own, and no instruction reads a flag. Two runs of one step from
states that differ in flags alone end in states that differ in flags alone: every flag computation of the instruction set is a sequence
of setters with values that come from elsewhere, so a flag either is as it was in both runs or has the same value in both. -/

namespace Sys2Proof.Machine

/-- Settles O30: the getter after the setter of the same flag, and of another. -/
theorem flagsAreIndependent : Obligations.FlagsAreIndependent := by
  intro fs f g x
  by_cases h : g = f
  · rw [if_pos h, h, Flags.get_set_same]
  · rw [if_neg h, Flags.get_set_ne _ h]

/-! ### Flags written alike -/

/-- Going from `fs` to `fs'` and from `gs` to `gs'`, each flag was left as it was in both, or is now the same in both. -/
def FlagsWrittenAlike (fs gs fs' gs' : Flags) : Prop :=
  ∀ f, (fs'.get f = fs.get f ∧ gs'.get f = gs.get f) ∨ gs'.get f = fs'.get f

namespace FlagsWrittenAlike

theorem refl (fs gs : Flags) : FlagsWrittenAlike fs gs fs gs :=
  fun _ => .inl ⟨rfl, rfl⟩

variable {fs gs fs' gs' : Flags} (h : FlagsWrittenAlike fs gs fs' gs')

include h

theorem set (f : Flag) (x : Bool) : FlagsWrittenAlike fs gs (fs'.set f x) (gs'.set f x) := by
  intro g
  by_cases hg : g = f
  · subst hg
    exact .inr (by rw [Flags.get_set_same, Flags.get_set_same])
  · rw [Flags.get_set_ne _ hg, Flags.get_set_ne _ hg]
    exact h g

theorem setZN (v : Byte) : FlagsWrittenAlike fs gs (fs'.setZN v) (gs'.setZN v) :=
  (h.set .z _).set .n _

theorem setAdc (a arg : Byte) : FlagsWrittenAlike fs gs (fs'.setAdc a arg) (gs'.setAdc a arg) :=
  ((h.set .c _).set .v _).setZN _

end FlagsWrittenAlike

/-- Outcomes reached from states with flags `fs` and `gs`, otherwise equal: next states equal but for flags, which are written alike, or
the same refusal. -/
inductive AlikeButFlags (fs gs : Flags) : Host.Outcome State Fault Refusal → Host.Outcome State Fault Refusal → Prop where
  | next (t : State) (gs' : Flags) (h : FlagsWrittenAlike fs gs t.flags gs') :
      AlikeButFlags fs gs (.next t) (.next { t with flags := gs' })
  | refused (q : Refusal) : AlikeButFlags fs gs (.refused q) (.refused q)

/-! ### The instructions -/

section Alike

variable (s : State) (fs : Flags)

theorem loadA_alike (d : DataOperand) : AlikeButFlags s.flags fs (loadA d s) (loadA d { s with flags := fs }) := by
  simp only [loadA, State.fetchArgument_flags]
  exact .next _ _ ((FlagsWrittenAlike.refl _ _).setZN _)

theorem loadX_alike (d : DataOperand) : AlikeButFlags s.flags fs (loadX d s) (loadX d { s with flags := fs }) := by
  simp only [loadX, State.fetchArgument_flags]
  exact .next _ _ ((FlagsWrittenAlike.refl _ _).setZN _)

theorem storeA_alike (m : MemOperand) : AlikeButFlags s.flags fs (storeA m s) (storeA m { s with flags := fs }) := by
  simp only [storeA, State.ea_flags]
  exact .next _ _ (.refl _ _)

theorem andA_alike (d : DataOperand) : AlikeButFlags s.flags fs (andA d s) (andA d { s with flags := fs }) := by
  simp only [andA, State.fetchArgument_flags]
  exact .next _ _ ((FlagsWrittenAlike.refl _ _).setZN _)

theorem addA_alike (d : DataOperand) : AlikeButFlags s.flags fs (addA d s) (addA d { s with flags := fs }) := by
  simp only [addA, State.fetchArgument_flags]
  exact .next _ _ ((FlagsWrittenAlike.refl _ _).setAdc _ _)

/-- JSR's refusal looks at SP, PC and the parameters, so both runs are refused or neither is. -/
theorem execJsr_alike (w : Word) : AlikeButFlags s.flags fs (execJsr w s) (execJsr w { s with flags := fs }) := by
  have hoverlap : jsrOverlaps { s with flags := fs } = jsrOverlaps s := rfl
  unfold execJsr
  rw [hoverlap]
  split
  · exact .refused _
  · exact .next _ _ (.refl _ _)

theorem exec_alike (i : Instr) : AlikeButFlags s.flags fs (exec i s) (exec i { s with flags := fs }) := by
  cases i with
  | ldaImmediate | ldaZeroPage | ldaZeroPageX | ldaAbsolute | ldaAbsoluteX | ldaAbsoluteY | ldaIndirectX | ldaIndirectY =>
    exact loadA_alike s fs _
  | ldxImmediate | ldxZeroPage | ldxZeroPageY | ldxAbsolute | ldxAbsoluteY => exact loadX_alike s fs _
  | staZeroPage | staZeroPageX | staAbsolute | staAbsoluteX | staAbsoluteY | staIndirectX | staIndirectY => exact storeA_alike s fs _
  | andImmediate | andZeroPage | andZeroPageX | andAbsolute | andAbsoluteX | andAbsoluteY | andIndirectX | andIndirectY =>
    exact andA_alike s fs _
  | adcImmediate | adcZeroPage | adcZeroPageX | adcAbsolute | adcAbsoluteX | adcAbsoluteY | adcIndirectX | adcIndirectY =>
    exact addA_alike s fs _
  | jsr w => exact execJsr_alike s fs w
  | tay => exact .next _ _ ((FlagsWrittenAlike.refl _ _).setZN _)
  | clc | sec => exact .next _ _ ((FlagsWrittenAlike.refl _ _).set _ _)
  | jmpAbsolute | jmpIndirect | rts | nop | brk => exact .next _ _ (.refl _ _)

theorem step_alike : AlikeButFlags s.flags fs (step s) (step { s with flags := fs }) := by
  by_cases hfault : s.fault = none
  · cases hlookup : lookup s.fetchOpcode with
    | none =>
      rw [step_unmapped hfault hlookup, step_unmapped (s := { s with flags := fs }) hfault hlookup]
      exact .next _ _ (.refl _ _)
    | some e =>
      obtain ⟨i, hdecode, -, -, hstep⟩ := step_mapped hfault hlookup
      rw [hstep, step_of_decode (s := { s with flags := fs }) hfault hdecode]
      exact exec_alike s fs i
  · rw [step_faulted hfault, step_faulted (s := { s with flags := fs }) hfault]
    exact .refused _

end Alike

/-- Settles O29: the fetch reads no flag and every instruction's outcomes are alike, so a step's are (`step_alike`). -/
theorem noStepReadsAFlag : Obligations.NoStepReadsAFlag := by
  intro s fs
  have halike := step_alike s fs
  generalize step s = o, step { s with flags := fs } = o' at halike ⊢
  cases halike with
  | next t gs' h => exact ⟨rfl, h⟩
  | refused q => rfl

end Sys2Proof.Machine
end

section
/-! PROOFS. 10_state.md R35 and 20_memory.md R50: a canonical memory is determined by what its cells hold, and every content of the cells
is that of one. The entries of a canonical memory are the cells that read as something other than an unlisted cell does. -/

namespace Sys2Proof.Machine

namespace Memory

/-- The entries of a canonical memory, by what its cells read. -/
theorem mem_iff_read {m : Memory} (h : m.wf = true) {c : Host.Cell} : c ∈ m ↔ c.2 ≠ unlistedByte ∧ m.read c.1 = c.2 := by
  obtain ⟨hrise, hlisted⟩ := (wf_iff m).mp h
  constructor
  · intro hc
    refine ⟨hlisted c hc, ?_⟩
    clear h hlisted
    induction m with
    | nil => cases hc
    | cons d rest ih =>
      obtain ⟨hd, hrest⟩ := List.pairwise_cons.mp hrise
      rcases List.mem_cons.mp hc with rfl | hc
      · exact if_pos rfl
      · exact (if_neg (hd c hc).ne).trans (ih hrest hc)
  · rintro ⟨hv, hread⟩
    clear h hrise hlisted
    induction m with
    | nil => exact absurd hread.symm hv
    | cons d rest ih =>
      by_cases hcell : d.1 = c.1
      · have hbyte : d.2 = c.2 := (if_pos hcell).symm.trans hread
        exact List.mem_cons.mpr (.inl (Prod.ext hcell hbyte).symm)
      · exact List.mem_cons_of_mem d (ih ((if_neg hcell).symm.trans hread))

theorem read_ofFun (f : Nat → Byte) (k n j : Nat) :
    (Memory.ofFun f k n).read j = if k ≤ j ∧ j < k + n then f j else unlistedByte := by
  induction n generalizing k with
  | zero => exact (if_neg (by omega)).symm
  | succ n ih =>
    have hread : (Memory.ofFun f k (n + 1)).read j = if k = j then f k else (Memory.ofFun f (k + 1) n).read j := by
      rw [Memory.ofFun]
      split
      · next hf =>
        rw [hf]
        split
        · next hk => rw [ih, if_neg (by omega)]
        · rfl
      · rfl
    rw [hread, ih]
    by_cases hk : k = j
    · subst hk
      rw [if_pos rfl, if_pos (by omega)]
    · rw [if_neg hk]
      exact if_congr (by omega) rfl rfl

end Memory

/-- Settles O46: canonical memories that read alike have the same entries (`Memory.mem_iff_read`), and lists in strictly rising order with
the same entries are equal. -/
theorem canonicalMemoriesAreDetermined : Obligations.CanonicalMemoriesAreDetermined := by
  intro m m' h h' hread
  have hantisymm : Std.Antisymm fun c d : Host.Cell => c.1 < d.1 := ⟨fun _ _ hcd hdc => absurd hdc hcd.not_gt⟩
  have hirrefl : Std.Irrefl fun c d : Host.Cell => c.1 < d.1 := ⟨fun _ => lt_irrefl _⟩
  obtain ⟨hrise, -⟩ := (Memory.wf_iff m).mp h
  obtain ⟨hrise', -⟩ := (Memory.wf_iff m').mp h'
  refine hrise.eq_of_mem_iff hrise' fun c => ?_
  rw [Memory.mem_iff_read h, Memory.mem_iff_read h', hread]

end Sys2Proof.Machine
end

section
/-! PROOFS. The invariant (20_memory.md R50, 60_exceptions.md R200): it holds right after NEW, and every step and every port request keeps
it. What a request leaves is said once (`port_next_cases`): TICK leaves what a step leaves, and every other request keeps FAULT none, the
parameters and a canonical memory, and draws only if it is RESET. -/

namespace Sys2Proof.Machine

/-! ### Where the invariant comes from -/

theorem State.Inv.memOk {s : State} (h : s.Inv) : s.MemOk :=
  ⟨h.canonical, h.within⟩

/-- With no fault recorded the invariant is about the memory alone. -/
theorem State.MemOk.inv {s : State} (h : s.MemOk) (hfault : s.fault = none) : s.Inv where
  canonical := h.1
  within := h.2
  recorded op hop := by
    rw [hfault] at hop
    contradiction

theorem inv_new {p : Params} {mem0 : Memory} (hwf : mem0.wf = true) (hwithin : mem0.within p.memSize.cells = true) :
    (State.new p mem0).Inv :=
  State.MemOk.inv ⟨hwf, hwithin⟩ rfl

/-- Settles O51: right after NEW no fault is recorded and the memory is `MEM0` (`inv_new`); that of State.reset lists nothing. -/
theorem invariantHoldsAtReset : Obligations.InvariantHoldsAtReset :=
  ⟨inv_new Memory.wf_nil (Memory.within_nil _), fun _ _ => inv_new⟩

/-- Settles O47: the memory made from the function on the cells of the array is canonical and within it, and reads as the function in
every cell that an address reaches (`Memory.read_ofFun`). -/
theorem everyMem0CanBeLaunched : Obligations.EveryMem0CanBeLaunched := by
  intro p mem0
  refine ⟨Memory.ofFun mem0 0 p.memSize.cells, inv_new (Memory.wf_ofFun _ _ _) (Memory.within_ofFun _ _), fun a => ?_⟩
  have hcell : (State.new p (Memory.ofFun mem0 0 p.memSize.cells)).phys a < p.memSize.cells := State.phys_lt _ a
  exact (Memory.read_ofFun mem0 0 p.memSize.cells _).trans (if_pos (by omega))

/-! ### Steps -/

/-- A taken decode failure records the opcode byte at PC, which it leaves there. -/
theorem inv_takeDecodeFailure {s : State} (h : s.MemOk) (hlookup : lookup s.fetchOpcode = none) :
    (s.takeDecodeFailure s.fetchOpcode).Inv where
  canonical := h.1
  within := h.2
  recorded op hop := by
    cases hop
    exact ⟨rfl, hlookup⟩

/-- Settles O52: an executed instruction keeps the memory canonical and within the array (`Executes.memOk`) and FAULT none
(`Executes.kept`); a taken decode failure records what the invariant asks for (`inv_takeDecodeFailure`). -/
theorem stepKeepsTheInvariant : Obligations.StepKeepsTheInvariant := by
  intro s t h hstep
  obtain ⟨hfault, ⟨_, _, -, -, -, -, -, hexec⟩ | ⟨hlookup, rfl⟩⟩ := step_next hstep
  · obtain ⟨hkept, -, -⟩ := hexec.kept
    exact (hexec.memOk h.memOk).inv (hkept.trans hfault)
  · exact inv_takeDecodeFailure h.memOk hlookup

theorem step_next_params_draws {s t : State} (h : step s = .next t) : t.params = s.params ∧ t.draws = s.draws := by
  obtain ⟨-, ⟨_, _, -, -, -, -, -, hexec⟩ | ⟨-, rfl⟩⟩ := step_next h
  · exact hexec.kept.2
  · exact ⟨rfl, rfl⟩

/-! ### Port requests -/

/-- What is the same in every state an unfaulted core's request other than TICK leaves. -/
structure RequestKeeps (r : Request) (s t : State) : Prop where
  fault  : t.fault = none
  params : t.params = s.params
  draws  : r ≠ .reset → t.draws = s.draws
  memOk  : s.MemOk → t.MemOk

/-- The inversion of a completed request. -/
theorem port_next_cases {r : Request} {s t : State} {v : Response} (h : port r s = .next (t, v)) :
    (r = .tick ∧ step s = .next t) ∨ RequestKeeps r s t := by
  by_cases hfault : s.fault = none
  swap
  · rw [port_faulted hfault] at h
    contradiction
  cases r with
  | tick =>
    obtain ⟨hstep, -⟩ := portTick_next ((port_tick hfault).symm.trans h)
    exact .inl ⟨rfl, hstep⟩
  | reset =>
    cases (port_reset_next hfault).symm.trans h
    exact .inr ⟨hfault, rfl, fun hr => absurd rfl hr, id⟩
  | load bs =>
    rw [port_load hfault, portLoad] at h
    split at h
    · contradiction
    · cases h
      exact .inr ⟨(s.writeBytes_fault bs _).trans hfault, s.writeBytes_params bs _, fun _ => s.writeBytes_draws bs _,
        fun hs => hs.writeBytes bs _⟩
  | readByte a =>
    cases (port_readByte hfault a).symm.trans h
    exact .inr ⟨hfault, rfl, fun _ => rfl, id⟩
  | readWord a =>
    cases (port_readWord hfault a).symm.trans h
    exact .inr ⟨hfault, rfl, fun _ => rfl, id⟩
  | pushByte b =>
    cases (port_pushByte hfault b).symm.trans h
    exact .inr ⟨hfault, rfl, fun _ => rfl, fun hs => hs.pushByte b⟩
  | pushWord w =>
    cases (port_pushWord hfault w).symm.trans h
    exact .inr ⟨hfault, rfl, fun _ => rfl, fun hs => hs.pushWord w⟩
  | popByte =>
    cases (port_popByte hfault).symm.trans h
    exact .inr ⟨hfault, rfl, fun _ => rfl, id⟩
  | popWord =>
    cases (port_popWord hfault).symm.trans h
    exact .inr ⟨hfault, rfl, fun _ => rfl, id⟩

/-- Settles O53: TICK keeps the invariant as a step does (`stepKeepsTheInvariant`); every other request keeps FAULT none and the memory
canonical and within the array (`port_next_cases`). -/
theorem portsKeepTheInvariant : Obligations.PortsKeepTheInvariant := by
  intro r s t v h hport
  rcases port_next_cases hport with ⟨-, hstep⟩ | hkeeps
  · obtain ⟨hparams, hdraws⟩ := step_next_params_draws hstep
    exact ⟨stepKeepsTheInvariant s t h hstep, hparams, fun _ => hdraws⟩
  · exact ⟨(hkeeps.memOk h.memOk).inv hkeeps.fault, hkeeps.params, hkeeps.draws⟩

end Sys2Proof.Machine
end

section
/-! PROOFS. 41_load_store_transfer.md R130 and 42_arithmetic_logic.md R140, R141: the forms of LDA, AND and ADC are gone through once, each to
its decoding, its shared meaning and its length; effect and frame are then those of the meaning, whatever the operand. -/

namespace Sys2Proof.Machine

open Sys2Proof.Forms

/-! ### Forms -/

/-- The form decodes from its bytes, means `meaning` of its operand, and is as long as the operand's mode says. -/
def DataFormMeans (meaning : DataOperand → State → Host.Outcome State Fault Refusal) (f : DataForm) : Prop :=
  (∀ rest, decode (f.bytes ++ rest) = .ok f.instr rest) ∧ exec f.instr = meaning f.operand ∧ f.operand.mode.len = f.bytes.length

section Forms

variable {b lo hi : Byte} {f : DataForm}

theorem means_loadA_of_mem_ldaForms (hf : f ∈ ldaForms b lo hi) : DataFormMeans loadA f := by
  simp only [ldaForms, List.mem_cons, List.not_mem_nil, or_false] at hf
  rcases hf with rfl | rfl | rfl | rfl | rfl | rfl | rfl | rfl <;> exact ⟨fun _ => decode_of rfl rfl, rfl, rfl⟩

theorem means_andA_of_mem_andForms (hf : f ∈ andForms b lo hi) : DataFormMeans andA f := by
  simp only [andForms, List.mem_cons, List.not_mem_nil, or_false] at hf
  rcases hf with rfl | rfl | rfl | rfl | rfl | rfl | rfl | rfl <;> exact ⟨fun _ => decode_of rfl rfl, rfl, rfl⟩

theorem means_addA_of_mem_adcForms (hf : f ∈ adcForms b lo hi) : DataFormMeans addA f := by
  simp only [adcForms, List.mem_cons, List.not_mem_nil, or_false] at hf
  rcases hf with rfl | rfl | rfl | rfl | rfl | rfl | rfl | rfl <;> exact ⟨fun _ => decode_of rfl rfl, rfl, rfl⟩

end Forms

/-! ### ADC's sum and frame -/

theorem wrap8_adcSum_toNat (a arg : Byte) : (wrap8 (adcSum a arg)).toNat = (a.toNat + arg.toNat) % 0x100 :=
  BitVec.toNat_ofNat _ 8

/-- A state whose flags are the old ones after `setAdc` keeps every flag but C, V, Z and N. -/
theorem flagsKeptBut_of_setAdc {s t : State} {a arg : Byte} (h : t.flags = s.flags.setAdc a arg) :
    FlagsKeptBut [.c, .v, .z, .n] s t := by
  intro f hf
  obtain ⟨hc, hv, hz, hn⟩ : f ≠ .c ∧ f ≠ .v ∧ f ≠ .z ∧ f ≠ .n := by simpa using hf
  rw [h, s.flags.setAdc_get hc hv hz hn]

/-! ### The obligations -/

/-- Settles O12: every form means `loadA` (`means_loadA_of_mem_ldaForms`), which replaces A, PC and, by `setZN`, two flags. -/
theorem ldaLoadsTheAccumulator : Obligations.LdaLoadsTheAccumulator := by
  intro b lo hi rest s f hf
  obtain ⟨hdecode, hexec, hlen⟩ := means_loadA_of_mem_ldaForms hf
  rw [hexec, ← hlen]
  exact ⟨hdecode rest, _, rfl, rfl, rfl, rfl, rfl, flagsKeptBut_of_setZN rfl, rfl, rfl, rfl, fun _ => rfl, rfl, rfl, rfl⟩

/-- Settles O16: every form means `andA` (`means_andA_of_mem_andForms`), whose result is the bitwise conjunction. -/
theorem andMasksTheAccumulator : Obligations.AndMasksTheAccumulator := by
  intro b lo hi rest s f hf
  obtain ⟨hdecode, hexec, hlen⟩ := means_andA_of_mem_andForms hf
  rw [hexec, ← hlen]
  exact ⟨hdecode rest, _, rfl, fun _ => BitVec.getLsbD_and, rfl, rfl, rfl, flagsKeptBut_of_setZN rfl, rfl, rfl, rfl, fun _ => rfl,
    rfl, rfl, rfl⟩

/-- Settles O17: every form means `addA` (`means_addA_of_mem_adcForms`), whose result is the sum modulo 0x100 (`wrap8_adcSum_toNat`) and
whose flags are those of `setAdc`. -/
theorem adcAddsWithoutCarryIn : Obligations.AdcAddsWithoutCarryIn := by
  intro b lo hi rest s f hf
  obtain ⟨hdecode, hexec, hlen⟩ := means_addA_of_mem_adcForms hf
  rw [hexec, ← hlen]
  exact ⟨hdecode rest, _, rfl, wrap8_adcSum_toNat _ _, rfl, rfl, rfl, rfl, rfl, flagsKeptBut_of_setAdc rfl, rfl, rfl, rfl,
    fun _ => rfl, rfl, rfl, rfl⟩

end Sys2Proof.Machine
end

section
/-! PROOFS. 43_control_transfer.md R150, R151, R154 and 44_flag_and_system.md R163: JMP, JSR and BRK. JSR is a word push followed by a jump,
or a refusal, according to the statements' condition on its stack cells; its frame is that of the word push. -/

namespace Sys2Proof.Machine

open Sys2Proof.Forms

/-- Settles O18: the decodings, and the two meanings, which replace PC alone. -/
theorem jmpGoesToItsTarget : Obligations.JmpGoesToItsTarget :=
  fun _ _ _ _ => ⟨decode_of rfl rfl, decode_of rfl rfl, rfl, rfl⟩

theorem exec_brk (s : State) : exec .brk s = .next (s.advance 1) := rfl

/-- Settles O26: BRK is the advance by 1 (`exec_brk`), as NOP is (`exec_nop`). -/
theorem brkMovesPcOnly : Obligations.BrkMovesPcOnly :=
  fun _ s => ⟨decode_of rfl rfl, exec_brk s, (exec_brk s).trans (exec_nop s).symm⟩

/-! ### JSR -/

theorem jsrReturn_eq_add_two (s : State) : jsrReturn s = s.pc + 2 := rfl

/-- The two decrements of a word push, as the one subtraction R151 gives. -/
theorem State.pushWord_sp_eq_sub_two (s : State) (w : Word) : (s.pushWord w).sp = s.sp - 2 := by
  rw [State.pushWord_sp]
  bv_omega

/-- A word push leaves every byte outside its two cells. -/
theorem State.readByte_pushWord_ne (s : State) (w : Word) {a : Word} (hhi : s.phys a ≠ s.phys (s.stackAddr s.sp))
    (hlo : s.phys a ≠ s.phys (s.stackAddr (s.sp - 1))) : (s.pushWord w).readByte a = s.readByte a := by
  rw [State.readByte_pushWord, if_neg hlo.symm, if_neg hhi.symm]

theorem exec_jsr_of_misses {s : State} (h : JsrMissesItsOperand s) (w : Word) :
    exec (.jsr w) s = .next ((s.pushWord (s.pc + 2)).jumpTo w) := by
  rw [exec_jsr, jsrReturn_eq_add_two]
  exact if_neg fun hoverlap => jsrOverlaps_eq_true_iff.mp hoverlap h

/-- Settles O20: JSR's own check finds the overlap (`jsrOverlaps_eq_true_iff`). -/
theorem jsrRefusedOnItsOwnOperand : Obligations.JsrRefusedOnItsOwnOperand := by
  intro w s h
  rw [exec_jsr, if_pos (jsrOverlaps_eq_true_iff.mpr h)]

/-- Settles O19: JSR pushes PC + 2 and jumps (`exec_jsr_of_misses`); the cells are those of a word push. -/
theorem jsrPushesReturnAddressAndJumps : Obligations.JsrPushesReturnAddressAndJumps := by
  intro lo hi rest s h
  refine ⟨decode_of rfl rfl, _, exec_jsr_of_misses h _, rfl, s.pushWord_sp_eq_sub_two _, ?_, ?_, fun a hhi hlo => ?_, ?_⟩
  · rw [State.jumpTo_readByte, State.readByte_pushWord_high]
  · rw [State.jumpTo_readByte, State.readByte_pushWord_low]
  · rw [State.jumpTo_readByte, s.readByte_pushWord_ne _ hhi hlo]
  · simp [LatchAndModelFieldsKept]

theorem eq_jsr_of_mnemonic {i : Instr} (h : i.mnemonic = .jsr) : ∃ w, i = .jsr w := by
  cases i with
  | jsr w => exact ⟨w, rfl⟩
  | _ => contradiction

/-- Settles O11: JSR completes under the condition (`exec_jsr_of_misses`), every other instruction always (`exec_completes`). -/
theorem everyInstructionCompletes : Obligations.EveryInstructionCompletes := by
  intro i s h
  by_cases hjsr : i.mnemonic = .jsr
  · obtain ⟨w, rfl⟩ := eq_jsr_of_mnemonic hjsr
    exact ⟨_, exec_jsr_of_misses (h rfl) w⟩
  · obtain ⟨t, hexec, -⟩ := exec_completes i s hjsr
    exact ⟨t, hexec⟩

/-- Settles O22: RTS pops the word JSR pushed (`State.popWordValue_pushWord`), PC + 2, and goes one past it; the pop's two increments undo
the push's two decrements. -/
theorem jsrThenRtsComesBack : Obligations.JsrThenRtsComesBack := by
  intro w s h
  refine ⟨_, _, exec_jsr_of_misses h w, rfl, ?_, ?_, ?_⟩
  · rw [State.jumpTo_pc, State.jumpTo_popWordValue, State.popWordValue_pushWord]
    exact BitVec.add_assoc s.pc 2 1
  · rw [State.jumpTo_sp, State.popWordState_sp_eq_add_two, State.jumpTo_sp, State.pushWord_sp_eq_sub_two, BitVec.sub_add_cancel]
  · simp

end Sys2Proof.Machine
end

section
/-! PROOFS. 10_state.md R43: which instruction writes what. One lemma for each register, flag and the memory, each naming among the cases of
`Executes`, which says everything an executed instruction can do, those that write it. -/

namespace Sys2Proof.Machine

open Sys2Proof.Forms

namespace Executes

variable {i : Instr} {s t : State} (h : Executes i s t)

include h

theorem a_kept (hi : i.mnemonic ∉ [.lda, .and, .adc]) : t.a = s.a := by
  cases h with
  | lda hm | and hm | adc hm => simp [hm] at hi
  | _ => simp

theorem x_kept (hi : i.mnemonic ≠ .ldx) : t.x = s.x := by
  cases h with
  | ldx hm => exact absurd hm hi
  | _ => simp

theorem y_kept (hi : i.mnemonic ≠ .tay) : t.y = s.y := by
  cases h with
  | tay hm => exact absurd hm hi
  | _ => simp

theorem sp_of_jsr (hi : i.mnemonic = .jsr) : t.sp = s.sp - 2 := by
  cases h with
  | jsr => rw [State.jumpTo_sp, s.pushWord_sp_eq_sub_two]
  | lda hm | ldx hm | sta hm | tay hm | and hm | adc hm | jmp hm | rts hm | clc hm | sec hm | nop hm | brk hm =>
    exact nomatch hm.symm.trans hi

theorem sp_of_rts (hi : i.mnemonic = .rts) : t.sp = s.sp + 2 := by
  cases h with
  | rts => rw [State.jumpTo_sp, s.popWordState_sp_eq_add_two]
  | lda hm | ldx hm | sta hm | tay hm | and hm | adc hm | jmp hm | jsr hm | clc hm | sec hm | nop hm | brk hm =>
    exact nomatch hm.symm.trans hi

theorem sp_kept (hi : i.mnemonic ∉ [.jsr, .rts]) : t.sp = s.sp := by
  cases h with
  | jsr hm | rts hm => simp [hm] at hi
  | _ => simp

theorem pc_advanced (hi : i.mnemonic ∉ [.jmp, .jsr, .rts]) : t.pc = s.pc + BitVec.ofNat 16 i.mode.len := by
  cases h with
  | jmp hm | jsr hm | rts hm => simp [hm] at hi
  | _ => rfl

theorem c_kept (hi : i.mnemonic ∉ [.adc, .clc, .sec]) : t.flags.c = s.flags.c := by
  cases h with
  | adc hm | clc hm | sec hm => simp [hm] at hi
  | _ => simp

theorem z_n_kept (hi : i.mnemonic ∉ [.lda, .ldx, .tay, .and, .adc]) : t.flags.z = s.flags.z ∧ t.flags.n = s.flags.n := by
  cases h with
  | lda hm | ldx hm | tay hm | and hm | adc hm => simp [hm] at hi
  | _ => exact ⟨rfl, rfl⟩

theorem v_kept (hi : i.mnemonic ≠ .adc) : t.flags.v = s.flags.v := by
  cases h with
  | adc hm => exact absurd hm hi
  | _ => rfl

theorem i_d_b_kept : t.flags.i = s.flags.i ∧ t.flags.d = s.flags.d ∧ t.flags.b = s.flags.b := by
  cases h <;> exact ⟨rfl, rfl, rfl⟩

theorem memory_kept (hi : i.mnemonic ∉ [.sta, .jsr]) : SameMemory s t := by
  cases h with
  | sta hm | jsr hm => simp [hm] at hi
  | _ => exact fun _ => rfl

end Executes

/-- Settles O27: one lemma of `Executes` for each column of the table. -/
theorem onlyTheTableWritesEachRegister : Obligations.OnlyTheTableWritesEachRegister := by
  intro i s t hexec
  have h := exec_next hexec
  exact ⟨h.a_kept, h.x_kept, h.y_kept, h.sp_of_jsr, h.sp_of_rts, h.sp_kept, h.pc_advanced, h.c_kept, h.z_n_kept, h.v_kept, h.i_d_b_kept,
    h.memory_kept, h.kept⟩

end Sys2Proof.Machine
end

section
/-! PROOFS. 20_memory.md R50, R53 to R55, R66, R74 and 40_execute_and_addressing.md R113 to R116: addresses and words as numbers, for the
modes that read a pointer, the word reads and the stack. -/

namespace Sys2Proof.Machine

namespace State

variable (s : State)

/-! ### Words read -/

theorem readWord_toNat (a : Word) : (s.readWord a).toNat = (s.readByte (a + 1)).toNat * 0x100 + (s.readByte a).toNat :=
  joinBytes_toNat _ _

/-! ### What a pop gives back -/

theorem popByteValue_pushByte (v : Byte) : (s.pushByte v).popByteValue = v := by
  rw [popByteValue, pushByte_stackAddr, pushByte_sp, BitVec.sub_add_cancel, readByte_pushByte, if_pos rfl]

theorem popByteState_pushByte_sp (v : Byte) : (s.pushByte v).popByteState.sp = s.sp := by
  rw [popByteState_sp, pushByte_sp, BitVec.sub_add_cancel]

theorem popWordState_pushWord_sp (w : Word) : (s.pushWord w).popWordState.sp = s.sp := by
  rw [popWordState_sp_eq_add_two, pushWord_sp_eq_sub_two, BitVec.sub_add_cancel]

/-- The stack addresses of SP - 1 and SP follow each other where the decrement does not wrap. -/
theorem stackAddr_sub_one_add_one {q : Byte} (h : 1 ≤ q.toNat) : s.stackAddr (q - 1) + 1 = s.stackAddr q := by
  have hq : (q - 1).toNat = q.toNat - 1 := BitVec.toNat_sub_of_le h
  have hlt := q.isLt
  have hbase : s.params.stackBase.addr.toNat ≤ 0x100 := by cases s.params.stackBase <;> decide
  apply BitVec.eq_of_toNat_eq
  rw [BitVec.toNat_add, stackAddr_toNat, stackAddr_toNat, hq, show (1 : Word).toNat = 1 from rfl]
  omega

/-- A pushed word reads back at the lower of its two addresses, where SP's first decrement does not wrap. -/
theorem readWord_pushWord {w : Word} (h : 1 ≤ s.sp.toNat) : (s.pushWord w).readWord (s.stackAddr (s.sp - 1)) = w := by
  rw [readWord, s.stackAddr_sub_one_add_one h, readByte_pushWord_high, readByte_pushWord_low, joinBytes_high_low]

end State

/-! ### Addressing -/

theorem zext16_eq_ofNat (b : Byte) : zext16 b = BitVec.ofNat 16 b.toNat :=
  (BitVec.ofNat_toNat 16 b).symm

theorem zeroPageIndexed_eq_ofNat (zp8 index : Byte) :
    zeroPageIndexed zp8 index = BitVec.ofNat 16 ((zp8.toNat + index.toNat) % 0x100) := by
  rw [zeroPageIndexed, zext16_eq_ofNat, BitVec.toNat_add]

/-- Settles O33: the pointer's address is the operand, or the index addition in the zero page (`zeroPageIndexed_eq_ofNat`), and the word at
it is that of `State.readWord_toNat`. -/
theorem pointerModesResolve : Obligations.PointerModesResolve := by
  intro s zp8 w
  refine ⟨s.readWord_toNat w, ?_, ?_⟩
  · rw [← zeroPageIndexed_eq_ofNat]
    exact s.readWord_toNat _
  · rw [← zext16_eq_ofNat]
    have hea := wordIndexed_toNat (s.readWord (zext16 zp8)) s.y
    rwa [s.readWord_toNat] at hea

/-- Settles O34: by definition of `fetch_argument`, `read_byte` and `phys`. -/
theorem fetchArgumentReadsTheOperand : Obligations.FetchArgumentReadsTheOperand :=
  fun _ _ _ => ⟨rfl, rfl⟩

/-- Settles O35: with 65535 cells the one address that is reduced is 0xFFFF, with 65536 none is. -/
theorem physReducesModuloMemSize : Obligations.PhysReducesModuloMemSize := by
  intro s a
  have hlt := a.isLt
  refine ⟨fun hsize => ?_, fun hsize => ?_, s.phys_lt a⟩
  · have hcells : s.params.memSize.cells = 65535 := congrArg MemSize.cells hsize
    by_cases ha : a = 0xFFFF
    · rw [if_pos ha, State.phys, hcells, ha]
      rfl
    · have hne : a.toNat ≠ 0xFFFF := fun h => ha (BitVec.eq_of_toNat_eq h)
      rw [if_neg ha, s.phys_of_lt (by omega)]
  · have hcells : s.params.memSize.cells = 65536 := congrArg MemSize.cells hsize
    exact s.phys_of_lt (by omega)

/-- Settles O43: the address is the number STACK_BASE + SP (`State.stackAddr_toNat`). -/
theorem stackCellAddress : Obligations.StackCellAddress := by
  intro s q
  refine ⟨fun hbase => ?_, fun hbase => ?_⟩
  · rw [s.stackAddr_toNat, hbase]
    exact Nat.zero_add _
  · rw [s.stackAddr_toNat, hbase]
    rfl

/-! ### Words and the stack through the ports -/

/-- Settles O37: the port answers `read_word` (`port_readWord`), whose high byte is at the next address, wrapped at 16 bits. -/
theorem readWordPortIsLittleEndian : Obligations.ReadWordPortIsLittleEndian := by
  intro s a h
  have hnext : BitVec.ofNat 16 (a.toNat + 1) = a + 1 := BitVec.eq_of_toNat_eq (BitVec.toNat_ofNat _ _)
  rw [hnext]
  exact ⟨_, port_readWord h a, s.readWord_toNat a⟩

/-- Settles O41: the pop reads the cells the push wrote (`State.popByteValue_pushByte`, `State.popWordValue_pushWord`), and its increments
undo the push's decrements. -/
theorem pushThenPopGivesBack : Obligations.PushThenPopGivesBack := by
  intro s v w h
  have hbyte : (s.pushByte v).fault = none := h
  have hword : (s.pushWord w).fault = none := h
  refine ⟨⟨s.pushByte v, _, port_pushByte h v, ?_, s.popByteState_pushByte_sp v⟩,
    ⟨s.pushWord w, _, port_pushWord h w, ?_, s.popWordState_pushWord_sp w⟩⟩
  · rw [port_popByte hbyte, s.popByteValue_pushByte]
  · rw [port_popWord hword, s.popWordValue_pushWord]

/-- Settles O42: where neither push wraps SP, the address is that of the second cell pushed, `stackaddr(SP - 1)`, at which the word reads
back (`State.readWord_pushWord`). -/
theorem pushedWordIsLittleEndianInMemory : Obligations.PushedWordIsLittleEndianInMemory := by
  intro s w h
  have haddr : BitVec.ofNat 16 (s.params.stackBase.addr.toNat + (s.pushWord w).sp.toNat + 1) = s.stackAddr (s.sp - 1) := by
    have hlt := s.sp.isLt
    have hone : (s.sp - 1).toNat = s.sp.toNat - 1 := BitVec.toNat_sub_of_le (show 1 ≤ s.sp.toNat by omega)
    have hpushed := s.pushWord_sp_toNat w
    have hsum : s.params.stackBase.addr.toNat + (s.pushWord w).sp.toNat + 1 = (s.stackAddr (s.sp - 1)).toNat := by
      rw [s.stackAddr_toNat]
      omega
    rw [hsum]
    exact BitVec.ofNat_toNat 16 _
  rw [haddr]
  exact s.readWord_pushWord (by omega)

end Sys2Proof.Machine
end

section
/-! PROOFS. 20_memory.md R61 and R72: what a LOAD leaves, by the cells after a run of byte writes, and what the next fetch sees after a
store, by the rule for a read after a byte write. -/

namespace Sys2Proof.Machine

open Sys2Proof.Forms

/-! ### LOAD -/

/-- A run of byte writes replaces the memory field alone. -/
theorem State.writeBytes_eq (s : State) (a : Word) (bs : List Byte) :
    s.writeBytes a bs = { s with mem := (s.writeBytes a bs).mem } := by
  induction bs generalizing s a with
  | nil => rfl
  | cons b bs ih => exact ih (s.writeByte a b) (a + 1)

/-- An address after a run of byte writes that stays inside the array, by the cell it reaches. -/
theorem State.readByte_writeBytes (s : State) (bs : List Byte) (a b : Word)
    (h : a.toNat + bs.length ≤ s.params.memSize.cells) :
    (s.writeBytes a bs).readByte b =
      if a.toNat ≤ s.phys b ∧ s.phys b < a.toNat + bs.length then bs.getD (s.phys b - a.toNat) 0x00 else s.readByte b := by
  rw [State.readByte, State.writeBytes_phys, s.read_writeBytes bs a h]
  rfl

/-- Settles O44: the image fits the array from 0x0600 on, so its bytes stand in their cells and no other cell changes
(`State.readByte_writeBytes`). -/
theorem loadPlacesTheBytes : Obligations.LoadPlacesTheBytes := by
  intro bs s hfault
  rw [port_load hfault, portLoad]
  refine ⟨fun hfits => ?_, fun hlong => if_pos hlong⟩
  have hcells := State.cells_bounds s.params.memSize
  have horigin : loadOrigin.toNat = 0x0600 := rfl
  have hrun : loadOrigin.toNat + bs.length ≤ s.params.memSize.cells := by omega
  refine ⟨_, if_neg (by omega), s.writeBytes_eq loadOrigin bs, fun k hk => ?_, fun a ha => ?_⟩
  · have haddr : (BitVec.ofNat 16 (0x0600 + k)).toNat = 0x0600 + k := by
      rw [BitVec.toNat_ofNat]
      omega
    have hphys : s.phys (BitVec.ofNat 16 (0x0600 + k)) = 0x0600 + k := by
      rw [s.phys_of_lt (by omega), haddr]
    rw [s.readByte_writeBytes bs loadOrigin _ hrun, hphys, horigin, if_pos (by omega), Nat.add_sub_cancel_left]
    exact List.getD_eq_getElem _ _ hk
  · rw [s.readByte_writeBytes bs loadOrigin a hrun, if_neg (by omega)]

/-! ### The fetch after a store -/

/-- Settles O45: STA is a byte write followed by the PC advance, so the opcode byte is read after that write. -/
theorem nextFetchSeesTheStore : Obligations.NextFetchSeesTheStore := by
  intro b lo hi s t f hf hexec
  obtain ⟨-, hstore, -⟩ := decode_exec_of_mem_staForms hf []
  rw [hstore] at hexec
  cases hexec
  exact (s.readByte_writeByte _ _ _).trans (if_congr eq_comm rfl rfl)

end Sys2Proof.Machine
end

section
/-! PROOFS. 70_reset_and_hazards.md R222 and R232: two RESETs, and the good ends of a run. A good run passes through unfaulted states only, and
runs that follow each other compose. -/

namespace Sys2Proof.Machine

/-! ### RESET twice -/

/-- A completed request is followed by the rest of the sequence. -/
theorem runPorts_cons_of_next {r : Request} {rs : List Request} {s t : State} {v : Response} (h : port r s = .next (t, v)) :
    runPorts (r :: rs) s = runPorts rs t := by
  simp only [runPorts, h]

/-- Settles O50: RESET keeps FAULT none, so the second one is answered too, and each subtracts the decrement (`resetReinitialises`). -/
theorem twoResetsDecrementTwice : Obligations.TwoResetsDecrementTwice := by
  intro s h
  obtain ⟨t, ht, -, -, -, hsp, hpc, hmem, hfault, -⟩ := (resetReinitialises s).1 h
  obtain ⟨u, hu, -, -, -, hsp', hpc', hmem', -⟩ := (resetReinitialises t).1 hfault
  have hrun : runPorts [.reset, .reset] s = .next u := by
    rw [runPorts_cons_of_next ht, runPorts_cons_of_next hu, runPorts]
  refine ⟨u, hrun, ?_, hmem'.trans hmem, hpc'.trans hpc⟩
  rw [hsp', hsp, BitVec.toNat_sub, BitVec.toNat_sub]
  omega

/-! ### Good runs -/

theorem goodTicks_zero_eq_some_iff {s t : State} : goodTicks 0 s = some t ↔ s.fault = none ∧ s = t := by
  simp only [goodTicks, Option.ite_none_right_eq_some, Option.some.injEq]

theorem goodTicks_succ_eq_some_iff {n : Nat} {s t : State} :
    goodTicks (n + 1) s = some t ↔ s.fault = none ∧ ∃ u, step s = .next u ∧ goodTicks n u = some t := by
  rw [goodTicks]
  cases step s <;> simp

theorem goodTicks_unfaulted {n : Nat} {s t : State} (h : goodTicks n s = some t) : s.fault = none ∧ t.fault = none := by
  induction n generalizing s with
  | zero =>
    obtain ⟨hfault, rfl⟩ := goodTicks_zero_eq_some_iff.mp h
    exact ⟨hfault, hfault⟩
  | succ n ih =>
    obtain ⟨hfault, u, -, hrest⟩ := goodTicks_succ_eq_some_iff.mp h
    obtain ⟨-, hend⟩ := ih hrest
    exact ⟨hfault, hend⟩

theorem goodTicks_add {n m : Nat} {s t u : State} (h : goodTicks n s = some t) (h' : goodTicks m t = some u) :
    goodTicks (n + m) s = some u := by
  induction n generalizing s with
  | zero =>
    obtain ⟨-, rfl⟩ := goodTicks_zero_eq_some_iff.mp h
    rwa [Nat.zero_add]
  | succ n ih =>
    obtain ⟨hfault, v, hstep, hrest⟩ := goodTicks_succ_eq_some_iff.mp h
    rw [Nat.succ_add]
    exact goodTicks_succ_eq_some_iff.mpr ⟨hfault, v, hstep, ih hrest⟩

/-- The first state at the stop address is reached after a number of ticks of its own, so it is one state. -/
theorem endsAt_unique {stop : Word} {s t u : State} (ht : EndsAt stop s t) (hu : EndsAt stop s u) : t = u := by
  obtain ⟨n, hn, hpc, hfirst⟩ := ht
  obtain ⟨m, hm, hpc', hfirst'⟩ := hu
  rcases lt_trichotomy n m with hlt | rfl | hgt
  · exact absurd hpc (hfirst' n hlt t hn)
  · exact Option.some.inj (hn.symm.trans hm)
  · exact absurd hpc' (hfirst m hgt u hm)

/-- Settles O54: a good run starts and ends unfaulted (`goodTicks_unfaulted`), the first state at an address is one (`endsAt_unique`), and
good runs compose (`goodTicks_add`). -/
theorem goodEndsAreUniqueAndUnfaulted : Obligations.GoodEndsAreUniqueAndUnfaulted := by
  refine ⟨fun _ _ _ => goodTicks_unfaulted, fun stop s t u ht hu => ⟨endsAt_unique ht hu, ?_⟩, fun _ _ _ _ _ => goodTicks_add⟩
  obtain ⟨n, hn, hpc, -⟩ := ht
  obtain ⟨-, hfault⟩ := goodTicks_unfaulted hn
  exact ⟨hpc, hfault⟩

end Sys2Proof.Machine
end
